-- ==== Sys2Proof/Word.lean ====
section
/-! DEFINITION. The widths of the machine's values (00_scope.md R7, R10; 30_encoding.md R101). -/

namespace Sys2Proof

/-- A u8: a general register, a timer, one byte of memory, an immediate `kk`. -/
abbrev Byte := BitVec 8

/-- A u16: I, PC, a stack slot, a breakpoint address, an instruction word. -/
abbrev Word := BitVec 16

/-- A u12: the address field `nnn` of an instruction word. -/
abbrev Addr12 := BitVec 12

/-- A 4-bit field of an instruction word: a sprite height `n`, a selector, a key code. -/
abbrev Nibble := BitVec 4

/-- A register index: the 4-bit field `x` or `y` (10_state.md R31). -/
abbrev RegIdx := BitVec 4

/-- The index of VF, the flag register (10_state.md R32). -/
abbrev flagReg : RegIdx := 0xF#4

end Sys2Proof
end

