-- ==== Sys2Proof/Syntax.lean ====
section
/-! DEFINITION. The instructions: one constructor per row of spec/opcode_table.json (30_encoding.md R107). -/

namespace Sys2Proof

/-- A decoded instruction: its tag, with the fields of its row (30_encoding.md R101, R102, R107).
A field that an instruction ignores (nnn of SYS, y of a shift, n of 5xyn and 9xyn, the word of UNKNOWN) is kept, so
that no bit of a word is lost (log 12). -/
inductive Instr where
  /-- `0nnn` SYS nnn (R140) -/
  | sys (nnn : Addr12)
  /-- `00E0` CLS (R220) -/
  | cls
  /-- `00EE` RET (R141) -/
  | ret
  /-- `1nnn` JP nnn (R142) -/
  | jp (nnn : Addr12)
  /-- `2nnn` CALL nnn (R143) -/
  | call (nnn : Addr12)
  /-- `3xkk` SE Vx, kk (R144) -/
  | seByte (x : RegIdx) (kk : Byte)
  /-- `4xkk` SNE Vx, kk (R145) -/
  | sneByte (x : RegIdx) (kk : Byte)
  /-- `5xyn` SE Vx, Vy (R146); n is ignored (R112) -/
  | seReg (x y : RegIdx) (n : Nibble)
  /-- `6xkk` LD Vx, kk (R171) -/
  | ldByte (x : RegIdx) (kk : Byte)
  /-- `7xkk` ADD Vx, kk (R172) -/
  | addByte (x : RegIdx) (kk : Byte)
  /-- `8xy0` LD Vx, Vy (R173) -/
  | ldReg (x y : RegIdx)
  /-- `8xy1` OR Vx, Vy (R174) -/
  | orReg (x y : RegIdx)
  /-- `8xy2` AND Vx, Vy (R175) -/
  | andReg (x y : RegIdx)
  /-- `8xy3` XOR Vx, Vy (R176) -/
  | xorReg (x y : RegIdx)
  /-- `8xy4` ADD Vx, Vy (R178) -/
  | addReg (x y : RegIdx)
  /-- `8xy5` SUB Vx, Vy (R179) -/
  | sub (x y : RegIdx)
  /-- `8xy6` SHR Vx (R180); y is ignored -/
  | shr (x y : RegIdx)
  /-- `8xy7` SUBN Vx, Vy (R181) -/
  | subn (x y : RegIdx)
  /-- `8xyE` SHL Vx (R182); y is ignored -/
  | shl (x y : RegIdx)
  /-- `9xyn` SNE Vx, Vy (R147); n is ignored (R112) -/
  | sneReg (x y : RegIdx) (n : Nibble)
  /-- `Annn` LD I, nnn (R200) -/
  | ldI (nnn : Addr12)
  /-- `Bnnn` JP V0, nnn (R148) -/
  | jpV0 (nnn : Addr12)
  /-- `Cxkk` RND Vx, kk (R191) -/
  | rnd (x : RegIdx) (kk : Byte)
  /-- `Dxyn` DRW Vx, Vy, n (R222) -/
  | drw (x y : RegIdx) (n : Nibble)
  /-- `Ex9E` SKP Vx (R243) -/
  | skp (x : RegIdx)
  /-- `ExA1` SKNP Vx (R244) -/
  | sknp (x : RegIdx)
  /-- `Fx07` LD Vx, DT (R240) -/
  | ldVxDt (x : RegIdx)
  /-- `Fx0A` LD Vx, K (R250) -/
  | ldVxK (x : RegIdx)
  /-- `Fx15` LD DT, Vx (R241) -/
  | ldDtVx (x : RegIdx)
  /-- `Fx18` LD ST, Vx (R242) -/
  | ldStVx (x : RegIdx)
  /-- `Fx1E` ADD I, Vx (R201) -/
  | addI (x : RegIdx)
  /-- `Fx29` LD F, Vx (R202) -/
  | ldF (x : RegIdx)
  /-- `Fx33` LD B, Vx (R203) -/
  | ldB (x : RegIdx)
  /-- `Fx55` LD [I], Vx (R204) -/
  | ldMemVx (x : RegIdx)
  /-- `Fx65` LD Vx, [I] (R205) -/
  | ldVxMem (x : RegIdx)
  /-- Any word that matches no other row: UNKNOWN (R149) -/
  | unknown (w : Word)
deriving DecidableEq, Repr

end Sys2Proof
end

