-- ==== Sys2Proof/WellFormed.lean ====
section
/-! DEFINITION. Which terms of `Instr` are instructions of some word: the checks that the fields' widths leave over. -/

namespace Sys2Proof

/-- The words that decode to UNKNOWN: top nibble 8 with a low nibble in 8..D or F, top nibble E with a low byte other
than 9E and A1, top nibble F with a low byte that is none of the nine selectors (30_encoding.md R108, R111). -/
def isUnknownWord (w : Word) : Bool :=
  let n := w.extractLsb' 0 4
  let kk := w.extractLsb' 0 8
  let top := w.extractLsb' 12 4
  (top == 0x8#4 && (0x8#4 ≤ n && n != 0xE#4))
    || (top == 0xE#4 && !(kk == 0x9E#8 || kk == 0xA1#8))
    || (top == 0xF#4 && !([0x07#8, 0x0A#8, 0x15#8, 0x18#8, 0x1E#8, 0x29#8, 0x33#8, 0x55#8, 0x65#8].contains kk))

/-- `SYS nnn` is not the words 00E0 and 00EE (R105, R110); `UNKNOWN` holds an unknown word (R111); the fields' widths
make every other term the instruction of a word. -/
def WellFormed : Instr → Bool
  | .sys nnn => nnn != 0x0E0#12 && nnn != 0x0EE#12
  | .unknown w => isUnknownWord w
  | .cls | .ret | .jp _ | .call _ | .seByte _ _ | .sneByte _ _ | .seReg _ _ _ | .ldByte _ _ | .addByte _ _
  | .ldReg _ _ | .orReg _ _ | .andReg _ _ | .xorReg _ _ | .addReg _ _ | .sub _ _ | .shr _ _ | .subn _ _ | .shl _ _
  | .sneReg _ _ _ | .ldI _ | .jpV0 _ | .rnd _ _ | .drw _ _ _ | .skp _ | .sknp _ | .ldVxDt _ | .ldVxK _ | .ldDtVx _
  | .ldStVx _ | .addI _ | .ldF _ | .ldB _ | .ldMemVx _ | .ldVxMem _ => true

end Sys2Proof
end

