-- ==== Sys2Proof/Decode.lean ====
section
/-! DEFINITION. The instruction codec: decode, total on every word (30_encoding.md R104 to R108), the encoder, and the
disassembly view (R113 to R115). -/

namespace Sys2Proof

/-- The five operand fields, extracted from every word by fixed masks (30_encoding.md R101). -/
structure Fields where
  /-- `w[11:0]` -/
  nnn : Addr12
  /-- `w[11:8]` -/
  x : RegIdx
  /-- `w[7:4]` -/
  y : RegIdx
  /-- `w[7:0]` -/
  kk : Byte
  /-- `w[3:0]` -/
  n : Nibble
deriving DecidableEq, Repr

/-- The fields of a word (R101). -/
def fields (w : Word) : Fields where
  nnn := w.extractLsb' 0 12
  x := w.extractLsb' 8 4
  y := w.extractLsb' 4 4
  kk := w.extractLsb' 0 8
  n := w.extractLsb' 0 4

/-- The top nibble `w[15:12]`, which selects the opcode (R101). -/
def topNibble (w : Word) : Nibble := w.extractLsb' 12 4

/-- The arithmetic class, mask 0xF00F (R105, R106). -/
def decode8 (w : Word) (f : Fields) : Instr :=
  if f.n = 0x0#4 then .ldReg f.x f.y
  else if f.n = 0x1#4 then .orReg f.x f.y
  else if f.n = 0x2#4 then .andReg f.x f.y
  else if f.n = 0x3#4 then .xorReg f.x f.y
  else if f.n = 0x4#4 then .addReg f.x f.y
  else if f.n = 0x5#4 then .sub f.x f.y
  else if f.n = 0x6#4 then .shr f.x f.y
  else if f.n = 0x7#4 then .subn f.x f.y
  else if f.n = 0xE#4 then .shl f.x f.y
  else .unknown w

/-- The key class, mask 0xF0FF, top nibble E (R105, R106). -/
def decodeE (w : Word) (f : Fields) : Instr :=
  if f.kk = 0x9E#8 then .skp f.x
  else if f.kk = 0xA1#8 then .sknp f.x
  else .unknown w

/-- The register/timer/key class, mask 0xF0FF, top nibble F (R105, R106). -/
def decodeF (w : Word) (f : Fields) : Instr :=
  if f.kk = 0x07#8 then .ldVxDt f.x
  else if f.kk = 0x0A#8 then .ldVxK f.x
  else if f.kk = 0x15#8 then .ldDtVx f.x
  else if f.kk = 0x18#8 then .ldStVx f.x
  else if f.kk = 0x1E#8 then .addI f.x
  else if f.kk = 0x29#8 then .ldF f.x
  else if f.kk = 0x33#8 then .ldB f.x
  else if f.kk = 0x55#8 then .ldMemVx f.x
  else if f.kk = 0x65#8 then .ldVxMem f.x
  else .unknown w

/-- The classes that the top nibble selects (R105, R106). -/
def decodeTop (w : Word) (f : Fields) (top : Nibble) : Instr :=
  if top = 0x0#4 then .sys f.nnn
  else if top = 0x1#4 then .jp f.nnn
  else if top = 0x2#4 then .call f.nnn
  else if top = 0x3#4 then .seByte f.x f.kk
  else if top = 0x4#4 then .sneByte f.x f.kk
  else if top = 0x5#4 then .seReg f.x f.y f.n
  else if top = 0x6#4 then .ldByte f.x f.kk
  else if top = 0x7#4 then .addByte f.x f.kk
  else if top = 0x8#4 then decode8 w f
  else if top = 0x9#4 then .sneReg f.x f.y f.n
  else if top = 0xA#4 then .ldI f.nnn
  else if top = 0xB#4 then .jpV0 f.nnn
  else if top = 0xC#4 then .rnd f.x f.kk
  else if top = 0xD#4 then .drw f.x f.y f.n
  else if top = 0xE#4 then decodeE w f
  else decodeF w f

/-- Decode: the full words 00E0 and 00EE first, then the classes of the top nibble (R104 to R106). -/
def decode (w : Word) : Instr :=
  if w = 0x00E0#16 then .cls
  else if w = 0x00EE#16 then .ret
  else decodeTop w (fields w) (topNibble w)

/-- The instruction of two bytes in the order they lie in memory: the byte at the lower address is bits 15..8
(20_memory.md R74, R76). -/
def decodeBytes (hi lo : Byte) : Instr := decode (hi ++ lo)

/-- The decoder on an instruction whose `nbits` low bits are `w` and whose other bits are 0. -/
def decodeTableWord (nbits w : Nat) : Option Instr :=
  let word : Word := BitVec.ofNat 16 (w % 2 ^ nbits)
  some (decodeBytes (word.extractLsb' 8 8) (word.extractLsb' 0 8))

/-- Format `A`: `oooo nnnn nnnn nnnn` (30_encoding.md R102). -/
def formatA (op : Nibble) (nnn : Addr12) : Word := op ++ nnn

/-- Formats `XK` and `X`: `oooo xxxx kkkk kkkk`, where format `X` has a fixed selector in place of kk (R102). -/
def formatXK (op : Nibble) (x : RegIdx) (kk : Byte) : Word := op ++ x ++ kk

/-- Formats `XY` and `XYN`: `oooo xxxx yyyy nnnn`, where format `XY` has a fixed selector in place of n, or ignores it
(R102). -/
def formatXYN (op : Nibble) (x y : RegIdx) (n : Nibble) : Word := op ++ x ++ y ++ n

/-- The word of an instruction, field by field as its pattern shows it (30_encoding.md R102, R107). -/
def encode : Instr → Word
  | .sys nnn => formatA 0x0#4 nnn
  | .cls => 0x00E0#16
  | .ret => 0x00EE#16
  | .jp nnn => formatA 0x1#4 nnn
  | .call nnn => formatA 0x2#4 nnn
  | .seByte x kk => formatXK 0x3#4 x kk
  | .sneByte x kk => formatXK 0x4#4 x kk
  | .seReg x y n => formatXYN 0x5#4 x y n
  | .ldByte x kk => formatXK 0x6#4 x kk
  | .addByte x kk => formatXK 0x7#4 x kk
  | .ldReg x y => formatXYN 0x8#4 x y 0x0#4
  | .orReg x y => formatXYN 0x8#4 x y 0x1#4
  | .andReg x y => formatXYN 0x8#4 x y 0x2#4
  | .xorReg x y => formatXYN 0x8#4 x y 0x3#4
  | .addReg x y => formatXYN 0x8#4 x y 0x4#4
  | .sub x y => formatXYN 0x8#4 x y 0x5#4
  | .shr x y => formatXYN 0x8#4 x y 0x6#4
  | .subn x y => formatXYN 0x8#4 x y 0x7#4
  | .shl x y => formatXYN 0x8#4 x y 0xE#4
  | .sneReg x y n => formatXYN 0x9#4 x y n
  | .ldI nnn => formatA 0xA#4 nnn
  | .jpV0 nnn => formatA 0xB#4 nnn
  | .rnd x kk => formatXK 0xC#4 x kk
  | .drw x y n => formatXYN 0xD#4 x y n
  | .skp x => formatXK 0xE#4 x 0x9E#8
  | .sknp x => formatXK 0xE#4 x 0xA1#8
  | .ldVxDt x => formatXK 0xF#4 x 0x07#8
  | .ldVxK x => formatXK 0xF#4 x 0x0A#8
  | .ldDtVx x => formatXK 0xF#4 x 0x15#8
  | .ldStVx x => formatXK 0xF#4 x 0x18#8
  | .addI x => formatXK 0xF#4 x 0x1E#8
  | .ldF x => formatXK 0xF#4 x 0x29#8
  | .ldB x => formatXK 0xF#4 x 0x33#8
  | .ldMemVx x => formatXK 0xF#4 x 0x55#8
  | .ldVxMem x => formatXK 0xF#4 x 0x65#8
  | .unknown w => w

/-! The disassembly view (R113 to R115; log 13). -/

/-- One hexadecimal digit, upper case. -/
def hexDigit (d : Nibble) : String :=
  ["0", "1", "2", "3", "4", "5", "6", "7", "8", "9", "A", "B", "C", "D", "E", "F"].getD d.toNat ""

/-- `0x` and two digits. -/
def hexByte (b : Byte) : String := "0x" ++ hexDigit (b.extractLsb' 4 4) ++ hexDigit (b.extractLsb' 0 4)

/-- `0x` and three digits. -/
def hexAddr (a : Addr12) : String :=
  "0x" ++ hexDigit (a.extractLsb' 8 4) ++ hexDigit (a.extractLsb' 4 4) ++ hexDigit (a.extractLsb' 0 4)

/-- `0x` and four digits. -/
def hexWord (w : Word) : String :=
  "0x" ++ hexDigit (w.extractLsb' 12 4) ++ hexDigit (w.extractLsb' 8 4) ++ hexDigit (w.extractLsb' 4 4)
    ++ hexDigit (w.extractLsb' 0 4)

/-- `V0` .. `VF`. -/
def regName (x : RegIdx) : String := "V" ++ hexDigit x

/-- The assembly form of an instruction (R107), with field values in hexadecimal (R115). -/
def assembly : Instr → String
  | .sys nnn => "SYS " ++ hexAddr nnn
  | .cls => "CLS"
  | .ret => "RET"
  | .jp nnn => "JP " ++ hexAddr nnn
  | .call nnn => "CALL " ++ hexAddr nnn
  | .seByte x kk => "SE " ++ regName x ++ ", " ++ hexByte kk
  | .sneByte x kk => "SNE " ++ regName x ++ ", " ++ hexByte kk
  | .seReg x y _ => "SE " ++ regName x ++ ", " ++ regName y
  | .ldByte x kk => "LD " ++ regName x ++ ", " ++ hexByte kk
  | .addByte x kk => "ADD " ++ regName x ++ ", " ++ hexByte kk
  | .ldReg x y => "LD " ++ regName x ++ ", " ++ regName y
  | .orReg x y => "OR " ++ regName x ++ ", " ++ regName y
  | .andReg x y => "AND " ++ regName x ++ ", " ++ regName y
  | .xorReg x y => "XOR " ++ regName x ++ ", " ++ regName y
  | .addReg x y => "ADD " ++ regName x ++ ", " ++ regName y
  | .sub x y => "SUB " ++ regName x ++ ", " ++ regName y
  | .shr x _ => "SHR " ++ regName x
  | .subn x y => "SUBN " ++ regName x ++ ", " ++ regName y
  | .shl x _ => "SHL " ++ regName x
  | .sneReg x y _ => "SNE " ++ regName x ++ ", " ++ regName y
  | .ldI nnn => "LD I, " ++ hexAddr nnn
  | .jpV0 nnn => "JP V0, " ++ hexAddr nnn
  | .rnd x kk => "RND " ++ regName x ++ ", " ++ hexByte kk
  | .drw x y n => "DRW " ++ regName x ++ ", " ++ regName y ++ ", 0x" ++ hexDigit n
  | .skp x => "SKP " ++ regName x
  | .sknp x => "SKNP " ++ regName x
  | .ldVxDt x => "LD " ++ regName x ++ ", DT"
  | .ldVxK x => "LD " ++ regName x ++ ", K"
  | .ldDtVx x => "LD DT, " ++ regName x
  | .ldStVx x => "LD ST, " ++ regName x
  | .addI x => "ADD I, " ++ regName x
  | .ldF x => "LD F, " ++ regName x
  | .ldB x => "LD B, " ++ regName x
  | .ldMemVx x => "LD [I], " ++ regName x
  | .ldVxMem x => "LD " ++ regName x ++ ", [I]"
  | .unknown w => "DW " ++ hexWord w

/-- The disassembly view of a word: decode, then its assembly form (R115). -/
def disassemble (w : Word) : String := assembly (decode w)

end Sys2Proof
end

