-- ==== Sys2Proof/Machine/Agents.lean ====
section
/-! DEFINITION. The actions of the agents that act on the engine (60_exceptions.md R330, R331, R340). -/

namespace Sys2Proof.Machine

/-- What a program loader hands over: a byte sequence, or the report that the file is unreadable
(60_exceptions.md R345). -/
inductive Image where
  | unreadable
  | bytes (b : List Byte)
deriving DecidableEq, Repr

/-- One atomic action of one agent (60_exceptions.md R330, R331, R340). -/
inductive Action where
  /-- the tick loop's turn: one iteration while Running (R321) -/
  | iteration
  /-- the keyboard source (R343) -/
  | setKeyState (code : Nibble) (pressed : Bool)
  /-- the display sink takes its signal (R341) -/
  | takeDisplay
  /-- the audio sink takes its signal (R342) -/
  | takeAudio
  /-- the state dump (R344) -/
  | dump
  /-- the program loader (R345) -/
  | loadProgram (image : Image)
  /-- the command `addBreakpoint` (R350) -/
  | addBreakpoint (addr : Word)
  /-- the command `listBreakpoints` (R351) -/
  | listBreakpoints
  /-- the command `deleteBreakpoint` (R352) -/
  | deleteBreakpoint (id : Nat)
  /-- the command `clearBreakpoints` (R353) -/
  | clearBreakpoints
  /-- the command `run` (R355) -/
  | run
  /-- the command `stop` (R356) -/
  | stop
  /-- the debugger's command `step` (R357) -/
  | step
deriving DecidableEq, Repr, Inhabited

/-- Who acts once the agenda is empty (log 2). -/
inductive Schedule where
  /-- the tick loop alone, for ever: the other agents stay silent -/
  | tickLoop
  /-- any agent: the n-th free action, then the ones after it (R331, "every interleaving") -/
  | free (n : Nat)
deriving DecidableEq, Repr

end Sys2Proof.Machine
end

