-- ==== Sys2Proof/Config.lean ====
section
/-! DEFINITION. What is fixed for the machine, and the free values the spec leaves open (00_scope.md R7, R8). -/

namespace Sys2Proof.Config

/-- The number of bytes of MEM (00_scope.md R7, 20_memory.md R70). -/
def memorySize : Nat := 0x1000

/-- The first address of the program region, where an image is copied (20_memory.md R71, R81). -/
def programBase : Nat := 0x200

/-- The longest program image that is loaded, 3584 bytes (20_memory.md R81). -/
def maxImage : Nat := 0xE00

/-- The columns of the pixel map (00_scope.md R7). -/
def columns : Nat := 64

/-- The rows of the pixel map (00_scope.md R7). -/
def rows : Nat := 32

/-- FREE VALUE. The byte that the k-th execution of RND draws: the parameter RNG, under no law (00_scope.md R8;
41_alu.md R191; 92_eei_decisions.md D18; log 3). It has no body, so nothing can be proved of a value of it. -/
opaque randomByte : Nat → Byte

/-- FREE VALUE. The n-th action of the agents, in the order in which they happen to act: the interleaving, under no law
(60_exceptions.md R331; 92_eei_decisions.md D31; log 2). It has no body, so nothing can be proved of the order. -/
opaque freeAction : Nat → Machine.Action

end Sys2Proof.Config
end

