-- ==== Sys2Proof/Machine/State.lean ====
section
/-! DEFINITION. The machine's state as plain data (10_state.md R30), its value at power-on (60_exceptions.md R346), and the
reasons a step could stop. -/

namespace Sys2Proof.Machine

/-- MEM as (address, byte) pairs in one canonical form: addresses strictly rising and below 0x1000, no entry equal to
what an unlisted address reads as (Machine/Memory.lean; log 8). -/
abbrev Memory := List Host.Cell

/-- PIX: 64 columns of 32 rows, `pix[x][y]` true when the pixel is set (10_state.md R43). -/
abbrev Pixmap := Vector (Vector Bool 32) 64

/-- The two causes of a fault (60_exceptions.md R300). -/
inductive FaultCause where
  /-- code 1, raised by CALL with SP = 0 -/
  | stackOverflow
  /-- code 2, raised by RET with SP = 16 -/
  | stackUnderflow
deriving DecidableEq, Repr

/-- The record `Some(cause, pc)` of a fault, with the PC of the faulting instruction (10_state.md R49). -/
structure FaultRecord where
  cause : FaultCause
  pc : Word
deriving DecidableEq, Repr

/-- Why the engine last entered Stopped (10_state.md R50); its None is the `none` of the field. -/
inductive StopReason where
  | breakpoint (addr : Word)
  | stopRequested
  | faulted
deriving DecidableEq, Repr

/-- What a state dump reads (60_exceptions.md R344). -/
structure Dump where
  v : Vector Byte 16
  i : Word
  pc : Word
  sp : Fin 17
  stack : Vector Word 16
  dt : Byte
  st : Byte
  pix : Pixmap
  breakpoints : List Word
  running : Bool
  cycles : Fin 9
  fault : Option FaultRecord
  stopReason : Option StopReason
deriving DecidableEq, Repr

/-- The engine's answer to a collaborator's action (log 6). -/
inductive Report where
  /-- the action had its effect -/
  | done
  /-- the command has no effect in the present state (R355, R356, R357) -/
  | ignored
  /-- refused: "engine faulted" (R304) -/
  | engineFaulted
  /-- a program load while Running is refused (R345) -/
  | loadWhileRunning
  /-- LoadError(Unreadable) (R345) -/
  | loadUnreadable
  /-- LoadError(TooLarge) (R345) -/
  | loadTooLarge
  /-- InvalidId (R352) -/
  | invalidId
  /-- the breakpoints with their 1-based ids (R351) -/
  | breakpointList (entries : List (Nat × Word))
  /-- a state dump (R344) -/
  | stateDump (d : Dump)
  /-- what the display sink reads on taking its signal (R341) -/
  | display (p : Pixmap)
  /-- what the audio sink reads on taking its signal (R342) -/
  | tone (on : Bool)
  /-- a sink found no signal to take (log 7) -/
  | noSignal
deriving DecidableEq, Repr

/-- The machine's whole state. The fields down to `key` are architectural, the next ones are the scheduler's and the
controller's (10_state.md R30); the last four are the model's own. -/
structure State where
  /-- V0..VF (R31) -/
  v : Vector Byte 16
  /-- the index register I (R34) -/
  i : Word
  /-- the program counter PC (R35) -/
  pc : Word
  /-- the stack pointer SP, 0..16 (R38) -/
  sp : Fin 17
  /-- STACK[0..15] (R39) -/
  stack : Vector Word 16
  /-- the delay timer DT (R40) -/
  dt : Byte
  /-- the sound timer ST (R41) -/
  st : Byte
  /-- MEM (R42) -/
  mem : Memory
  /-- PIX (R43) -/
  pix : Pixmap
  /-- KEY (R44) -/
  key : Vector Bool 16
  /-- the breakpoints, in insertion order (R45) -/
  breakpoints : List Word
  /-- true while the scheduler is Running (R46) -/
  running : Bool
  /-- Executed steps since the last tick, 0..8 (R47) -/
  cycles : Fin 9
  /-- a stop command not yet consumed (R48) -/
  stopRequest : Bool
  /-- the fault record (R49) -/
  fault : Option FaultRecord
  /-- why the engine last entered Stopped (R50) -/
  stopReason : Option StopReason
  /-- the display sink's notification (R51) -/
  displaySignal : Bool
  /-- the audio sink's notification (R51) -/
  audioSignal : Bool
  /-- MODEL'S OWN: how many random bytes have been drawn (R191; log 3) -/
  draws : Nat
  /-- MODEL'S OWN: the agents' actions that happen next, first one first (R331; log 2) -/
  agenda : List Action
  /-- MODEL'S OWN: who acts once the agenda is empty (R331; log 2) -/
  schedule : Schedule
  /-- MODEL'S OWN: the engine's answer to the last collaborator action (log 6) -/
  report : Option Report
deriving DecidableEq, Repr

/-- The machine at power-on: every field at its reset value (10_state.md R53, 60_exceptions.md R346), MEM holding the font
image and zeros, which is what an empty list reads as (log 8), and no breakpoints. The engine is Stopped (R402). The
model's own fields start at values of the model (logs 2, 3, 6). -/
def State.reset : State where
  v := Vector.replicate 16 0
  i := 0
  pc := 0x200#16
  sp := 16
  stack := Vector.replicate 16 0
  dt := 0
  st := 0
  mem := []
  pix := Vector.replicate 64 (Vector.replicate 32 false)
  key := Vector.replicate 16 false
  breakpoints := []
  running := false
  cycles := 0
  stopRequest := false
  fault := none
  stopReason := none
  displaySignal := false
  audioSignal := false
  draws := 0
  agenda := []
  schedule := .free 0
  report := none

/-- The reasons the MACHINE stops dead: there are none. "Nothing else faults" than the two stack conditions (60_exceptions.md
R301), and those are taken: CALL and RET answer a next state with the fault recorded and the engine Stopped (R302; log 5).
Safe: no run of the model ends where the engine goes on. -/
inductive Fault where
deriving DecidableEq, Repr

/-- The reasons the MODEL gives no meaning. -/
inductive Refusal where
  /-- Raised by an arm of `exec` whose instruction has no meaning yet; no arm raises it. Safe: nothing is proved of
  such an instruction. -/
  | notModelled (mnemonic : String)
deriving DecidableEq, Repr

end Sys2Proof.Machine
end

