-- ==== Sys2Proof/Machine/Flags.lean ====
section
/-! DEFINITION. The results of 8-bit arithmetic and the values that the instructions write to VF (10_state.md R32;
41_alu.md R170, R177, R180, R182). Sums and differences are exact, and narrowed at the end. -/

namespace Sys2Proof.Machine

/-- A condition as a flag value, 1 or 0. -/
def flag (c : Bool) : Byte := if c then 1#8 else 0#8

/-- `(a + b) mod 256` (R177). -/
def addResult (a b : Byte) : Byte := BitVec.ofNat 8 (a.toNat + b.toNat)

/-- The carry: 1 if `a + b > 255` (R177). -/
def carryFlag (a b : Byte) : Byte := flag (decide (255 < a.toNat + b.toNat))

/-- `(a - b + 256) mod 256` (R177). -/
def subResult (a b : Byte) : Byte := BitVec.ofNat 8 (a.toNat + 256 - b.toNat)

/-- NOT borrow: 1 if `a >= b` (R177). -/
def notBorrowFlag (a b : Byte) : Byte := flag (decide (b.toNat ≤ a.toNat))

/-- The bit that a shift right drops: `vx & 0x01` (R180). -/
def shiftedOutRight (vx : Byte) : Byte := vx &&& 0x01#8

/-- The bit that a shift left drops: `(vx >> 7) & 0x01` (R182). -/
def shiftedOutLeft (vx : Byte) : Byte := (vx >>> 7) &&& 0x01#8

end Sys2Proof.Machine
end

