-- ==== Sys2Proof/Machine/Memory.lean ====
section
/-! DEFINITION. MEM: what an unlisted address reads as, one byte read and written, the canonical form (10_state.md R42;
20_memory.md R70 to R73, R79; log 8). -/

namespace Sys2Proof.Machine

/-- FONT: the 16 glyphs of five bytes (20_memory.md R72; the spec's decision D13). -/
def font : List Byte :=
  [0xF0, 0x90, 0x90, 0x90, 0xF0] ++ [0x20, 0x60, 0x20, 0x20, 0x70] ++
  [0xF0, 0x10, 0xF0, 0x80, 0xF0] ++ [0xF0, 0x10, 0xF0, 0x10, 0xF0] ++
  [0x90, 0x90, 0xF0, 0x10, 0x10] ++ [0xF0, 0x80, 0xF0, 0x10, 0xF0] ++
  [0xF0, 0x80, 0xF0, 0x90, 0xF0] ++ [0xF0, 0x10, 0x20, 0x40, 0x40] ++
  [0xF0, 0x90, 0xF0, 0x90, 0xF0] ++ [0xF0, 0x90, 0xF0, 0x10, 0xF0] ++
  [0xF0, 0x90, 0xF0, 0x90, 0x90] ++ [0xE0, 0x90, 0xE0, 0x90, 0xE0] ++
  [0xF0, 0x80, 0x80, 0x80, 0xF0] ++ [0xE0, 0x90, 0x90, 0x90, 0xE0] ++
  [0xF0, 0x80, 0xF0, 0x80, 0xF0] ++ [0xF0, 0x80, 0xF0, 0x80, 0x80]

/-- FONT_BASE: the address of glyph 0 (20_memory.md R72; the spec's decision D13). -/
def fontBase : Nat := 0x000

/-- What an address that no entry lists reads as: its contents at power-on, the font at FONT_BASE and 0 elsewhere
(20_memory.md R72, 60_exceptions.md R346; log 8). -/
def Memory.unlisted (a : Nat) : Byte :=
  if fontBase ≤ a then font.getD (a - fontBase) 0 else 0

/-- The byte at address `a`. -/
def Memory.read (a : Nat) : Memory → Byte
  | [] => Memory.unlisted a
  | (k, b) :: m => if k = a then b else Memory.read a m

/-- `m` with the pair `(a, b)` before the first greater address. -/
def Memory.insert (a : Nat) (b : Byte) : Memory → Memory
  | [] => [(a, b)]
  | (k, c) :: m => if a < k then (a, b) :: (k, c) :: m else (k, c) :: Memory.insert a b m

/-- `m` without an entry for `a`. -/
def Memory.erase (a : Nat) (m : Memory) : Memory := m.filter fun c => c.1 != a

/-- `m` with byte `b` at address `a`: a write changes only its byte (20_memory.md R79), and keeps the canonical form. -/
def Memory.write (a : Nat) (b : Byte) (m : Memory) : Memory :=
  if b = Memory.unlisted a then Memory.erase a m else Memory.insert a b (Memory.erase a m)

/-- The bytes of a list written upward from address `a`. -/
def Memory.writeList (a : Nat) : List Byte → Memory → Memory
  | [], m => m
  | b :: bs, m => Memory.writeList (a + 1) bs (Memory.write a b m)

/-- `m` with 0 in every byte 0x200..0xFFF, which is what those addresses read as unlisted (20_memory.md R81). -/
def Memory.clearProgram (m : Memory) : Memory := m.filter fun c => c.1 < Config.programBase

/-- Every entry after an entry with address `k` has a greater address. -/
def Memory.risesFrom : Option Nat → Memory → Bool
  | _, [] => true
  | none, (k, _) :: m => Memory.risesFrom (some k) m
  | some j, (k, _) :: m => decide (j < k) && Memory.risesFrom (some k) m

/-- The canonical form: addresses strictly rising, all below 0x1000, no entry equal to what an unlisted address
reads as. -/
def Memory.wf (m : Memory) : Bool :=
  Memory.risesFrom none m && m.all fun c => decide (c.1 < Config.memorySize) && (c.2 != Memory.unlisted c.1)

end Sys2Proof.Machine
end

