-- ==== Sys2Proof/Machine/Operands.lean ====
section
/-! DEFINITION. How the operands of the instructions are formed (30_encoding.md R103; 20_memory.md R75; 42_index_memory.md
R206). No field is sign-extended, scaled or shifted. -/

namespace Sys2Proof.Machine

/-- `EA(base + k) = (base + k) mod 0x1000`, with the exact sum (20_memory.md R75). -/
def ea (base : Word) (k : Nat) : Nat := (base.toNat + k) % Config.memorySize

/-- `zext_16(nnn)` (30_encoding.md R103). -/
def zextAddr (nnn : Addr12) : Word := nnn.setWidth 16

/-- `zext_16(vx)`, for ADD I and JP V0. -/
def zextByte (b : Byte) : Word := b.setWidth 16

/-- The key that a register selects: its low nibble (44_timers_keys.md R243; the spec's decision D15). -/
def keyIndex (vx : Byte) : Nibble := (vx &&& 0x0F#8).setWidth 4

/-- The glyph that a register selects: `FONT_BASE + 5 * (vx & 0x0F)` (42_index_memory.md R202; the spec's
decision D13). -/
def glyphAddress (vx : Byte) : Word := BitVec.ofNat 16 (fontBase + 5 * (vx &&& 0x0F#8).toNat)

/-- The hundreds digit (42_index_memory.md R203). -/
def hundreds (vx : Byte) : Byte := BitVec.ofNat 8 (vx.toNat / 100)

/-- The tens digit (R203). -/
def tens (vx : Byte) : Byte := BitVec.ofNat 8 (vx.toNat / 10 % 10)

/-- The units digit (R203). -/
def units (vx : Byte) : Byte := BitVec.ofNat 8 (vx.toNat % 10)

/-- The eight pixels of a sprite byte, bit 7 first: the leftmost (43_display.md R221). -/
def spriteBits (b : Byte) : List Bool := (List.range 8).map fun c => b.getLsbD (7 - c)

end Sys2Proof.Machine
end

