-- ==== Sys2Proof/Machine/Ops.lean ====
section
/-! DEFINITION. The named operations over registers, stack, memory, keys and the pixel map, and taking a fault (00_scope.md
R11 to R14). -/

namespace Sys2Proof.Machine

/-! Registers and PC. -/

/-- `V[x]` (10_state.md R31). -/
def State.reg (s : State) (x : RegIdx) : Byte := s.v[x.toNat]'x.isLt

/-- `V[x] <- b`. -/
def State.setReg (s : State) (x : RegIdx) (b : Byte) : State := { s with v := s.v.set x.toNat b x.isLt }

/-- `I <- w`. -/
def State.setIndex (s : State) (w : Word) : State := { s with i := w }

/-- `PC <- target`, modulo 2^16 (10_state.md R36). -/
def State.setPc (s : State) (target : Word) : State := { s with pc := target }

/-- "PC advances": `PC <- (PC + 2) mod 2^16` (00_scope.md R15). -/
def State.advance (s : State) : State := s.setPc (s.pc + 2#16)

/-- A conditional skip: PC + 4 when taken, else PC + 2 (40_control_flow.md R150). -/
def State.skipIf (s : State) (c : Bool) : State := s.setPc (if c then s.pc + 4#16 else s.pc + 2#16)

/-- `DT <- b`. -/
def State.setDelay (s : State) (b : Byte) : State := { s with dt := b }

/-- `ST <- b`. -/
def State.setSound (s : State) (b : Byte) : State := { s with st := b }

/-! Memory. -/

/-- `MemRead(a, 1)` (00_scope.md R12). -/
def State.byteAt (s : State) (a : Nat) : Byte := s.mem.read a

/-- `MemWrite(a, 1, b)` (00_scope.md R12). -/
def State.store (s : State) (a : Nat) (b : Byte) : State := { s with mem := s.mem.write a b }

/-- `Fetch(PC)`: two bytes, big-endian, each address modulo 0x1000 (20_memory.md R74). -/
def State.fetch (s : State) : Word := s.byteAt (ea s.pc 0) ++ s.byteAt (ea s.pc 1)

/-- The instruction at PC: fetch, then decode (60_exceptions.md R320). -/
def State.instrAtPc (s : State) : Instr := decodeBytes (s.byteAt (ea s.pc 0)) (s.byteAt (ea s.pc 1))

/-- `MEM[EA(I + k)] <- V[k]` for the first `n` registers, ascending (42_index_memory.md R204). -/
def State.storeRegs (s : State) : Nat → State
  | 0 => s
  | n + 1 => (s.storeRegs n).store (ea s.i n) (s.reg (BitVec.ofNat 4 n))

/-- `V[k] <- MEM[EA(I + k)]` for the first `n` registers, ascending (42_index_memory.md R205). -/
def State.loadRegs (s : State) : Nat → State
  | 0 => s
  | n + 1 => (s.loadRegs n).setReg (BitVec.ofNat 4 n) (s.byteAt (ea s.i n))

/-- The `n` bytes of a sprite, read from `EA(I + r)` (43_display.md R221). -/
def State.sprite (s : State) (n : Nat) : List Byte := (List.range n).map fun r => s.byteAt (ea s.i r)

/-! The call stack (10_state.md R38, R39). -/

/-- `SP <- SP - 1; STACK[SP] <- w`; CALL calls it only when the stack is not full. -/
def State.push (s : State) (w : Word) : State :=
  { s with
    sp := ⟨s.sp.val - 1, Nat.lt_of_le_of_lt (Nat.sub_le _ _) s.sp.isLt⟩
    stack := s.stack.set (s.sp.val - 1) w (by have := s.sp.isLt; omega) }

/-- `STACK[SP]`, when the stack is not empty. -/
def State.top (s : State) (h : s.sp.val ≠ 16) : Word := s.stack[s.sp.val]'(by have := s.sp.isLt; omega)

/-- `SP <- SP + 1`, when the stack is not empty; the slot keeps its value (40_control_flow.md R141). -/
def State.pop (s : State) (h : s.sp.val ≠ 16) : State :=
  { s with sp := ⟨s.sp.val + 1, by have := s.sp.isLt; omega⟩ }

/-! Taking a fault. There is no return from one: only a program load clears it (60_exceptions.md R304, R305). -/

/-- The numeric code of a cause (60_exceptions.md R300). -/
def FaultCause.code : FaultCause → Nat
  | .stackOverflow => 1
  | .stackUnderflow => 2

/-- `raise Fault(cause)`: the fault is recorded with the PC of the instruction, the engine stops, and nothing else
changes (60_exceptions.md R302). -/
def State.takeFault (s : State) (cause : FaultCause) : State :=
  { s with fault := some { cause := cause, pc := s.pc }, running := false, stopReason := some .faulted }

/-! The fields of the scheduler and the controller, and the model's own (10_state.md R30). -/

/-- `cycles <- c`. -/
def State.setCycles (s : State) (c : Fin 9) : State := { s with cycles := c }

/-- Entering Stopped for a reason (10_state.md R50). -/
def State.stopFor (s : State) (r : StopReason) : State := { s with running := false, stopReason := some r }

/-- Entering Running (60_exceptions.md R355). -/
def State.start (s : State) : State := { s with running := true }

/-- `stopRequest <- b` (10_state.md R48). -/
def State.setStopRequest (s : State) (b : Bool) : State := { s with stopRequest := b }

/-- `breakpoints <- l` (10_state.md R45). -/
def State.setBreakpoints (s : State) (l : List Word) : State := { s with breakpoints := l }

/-- `displaySignal <- b` (10_state.md R51). -/
def State.setDisplaySignal (s : State) (b : Bool) : State := { s with displaySignal := b }

/-- `audioSignal <- b` (10_state.md R51). -/
def State.setAudioSignal (s : State) (b : Bool) : State := { s with audioSignal := b }

/-- The actions still to happen (log 2). -/
def State.setAgenda (s : State) (l : List Action) : State := { s with agenda := l }

/-- Who acts once the agenda is empty (log 2). -/
def State.setSchedule (s : State) (c : Schedule) : State := { s with schedule := c }

/-- The engine's answer to a collaborator (log 6). -/
def State.setReport (s : State) (r : Report) : State := { s with report := some r }

/-! Keys (10_state.md R44). -/

/-- `KEY[k]`. -/
def State.keyDown (s : State) (k : Nibble) : Bool := s.key[k.toNat]'k.isLt

/-- `KEY[k] <- pressed` (60_exceptions.md R343). -/
def State.setKey (s : State) (k : Nibble) (pressed : Bool) : State :=
  { s with key := s.key.set k.toNat pressed k.isLt }

/-- The 16 key numbers, ascending. -/
def keyNumbers : List Nibble := (List.range 16).map (BitVec.ofNat 4)

/-- `min(P)` for the set P of pressed keys, none when it is empty (44_timers_keys.md R250). -/
def State.lowestKey (s : State) : Option Nibble := keyNumbers.find? s.keyDown

/-! The pixel map (10_state.md R43). -/

/-- `PIX[px][py]`; a position off the grid is no pixel and reads false. -/
def Pixmap.get (p : Pixmap) (px py : Nat) : Bool :=
  if h : px < 64 ∧ py < 32 then (p[px]'h.1)[py]'h.2 else false

/-- `PIX[px][py] <- not PIX[px][py]`; a position off the grid is dropped. -/
def Pixmap.toggle (p : Pixmap) (px py : Nat) : Pixmap :=
  if h : px < 64 ∧ py < 32 then p.set px ((p[px]'h.1).set py (!(p[px]'h.1)[py]'h.2) h.2) h.1 else p

/-- The map with every pixel false. -/
def Pixmap.clear : Pixmap := Vector.replicate 64 (Vector.replicate 32 false)

/-- `PIX[px][py]` of a state. -/
def State.pixel (s : State) (px py : Nat) : Bool := s.pix.get px py

/-- `PIX <- p`. -/
def State.setPix (s : State) (p : Pixmap) : State := { s with pix := p }

/-! The random byte (00_scope.md R13; 41_alu.md R191; log 3). -/

/-- `draw_u8()`: the byte that the next draw gives. -/
def State.nextRandom (s : State) : Byte := Config.randomByte s.draws

/-- The next draw is a fresh one. -/
def State.drawn (s : State) : State := { s with draws := s.draws + 1 }

end Sys2Proof.Machine
end

