-- ==== Sys2Proof/Machine/Alu.lean ====
section
/-! DEFINITION. Register loads, arithmetic, logic, shifts and RND (41_alu.md). Operands are read before the first write, and
the last write wins (00_scope.md R14): the adds and subtractions write VF last, the shifts write Vx last (10_state.md R33). -/

namespace Sys2Proof.Machine

/-- LD Vx, kk (R171). -/
def execLdByte (x : RegIdx) (kk : Byte) (s : State) : Host.Outcome State Fault Refusal :=
  .next (s.setReg x kk).advance

/-- ADD Vx, kk: the carry goes to VF (R172). -/
def execAddByte (x : RegIdx) (kk : Byte) (s : State) : Host.Outcome State Fault Refusal :=
  let vx := s.reg x
  .next ((s.setReg x (addResult vx kk)).setReg flagReg (carryFlag vx kk)).advance

/-- LD Vx, Vy (R173). -/
def execLdReg (x y : RegIdx) (s : State) : Host.Outcome State Fault Refusal :=
  .next (s.setReg x (s.reg y)).advance

/-- OR Vx, Vy (R174). -/
def execOrReg (x y : RegIdx) (s : State) : Host.Outcome State Fault Refusal :=
  .next (s.setReg x (s.reg x ||| s.reg y)).advance

/-- AND Vx, Vy (R175). -/
def execAndReg (x y : RegIdx) (s : State) : Host.Outcome State Fault Refusal :=
  .next (s.setReg x (s.reg x &&& s.reg y)).advance

/-- XOR Vx, Vy (R176). -/
def execXorReg (x y : RegIdx) (s : State) : Host.Outcome State Fault Refusal :=
  .next (s.setReg x (s.reg x ^^^ s.reg y)).advance

/-- ADD Vx, Vy: the carry goes to VF (R178). -/
def execAddReg (x y : RegIdx) (s : State) : Host.Outcome State Fault Refusal :=
  let vx := s.reg x
  let vy := s.reg y
  .next ((s.setReg x (addResult vx vy)).setReg flagReg (carryFlag vx vy)).advance

/-- SUB Vx, Vy: VF is NOT borrow (R179). -/
def execSub (x y : RegIdx) (s : State) : Host.Outcome State Fault Refusal :=
  let vx := s.reg x
  let vy := s.reg y
  .next ((s.setReg x (subResult vx vy)).setReg flagReg (notBorrowFlag vx vy)).advance

/-- SHR Vx; y is ignored (R180). -/
def execShr (x _y : RegIdx) (s : State) : Host.Outcome State Fault Refusal :=
  let vx := s.reg x
  .next ((s.setReg flagReg (shiftedOutRight vx)).setReg x (vx >>> 1)).advance

/-- SUBN Vx, Vy: VF is NOT borrow (R181). -/
def execSubn (x y : RegIdx) (s : State) : Host.Outcome State Fault Refusal :=
  let vx := s.reg x
  let vy := s.reg y
  .next ((s.setReg x (subResult vy vx)).setReg flagReg (notBorrowFlag vy vx)).advance

/-- SHL Vx; y is ignored (R182). -/
def execShl (x _y : RegIdx) (s : State) : Host.Outcome State Fault Refusal :=
  let vx := s.reg x
  .next ((s.setReg flagReg (shiftedOutLeft vx)).setReg x (vx <<< 1)).advance

/-- RND Vx, kk: a fresh free byte, masked (R191; log 3). -/
def execRnd (x : RegIdx) (kk : Byte) (s : State) : Host.Outcome State Fault Refusal :=
  .next (s.drawn.setReg x (s.nextRandom &&& kk)).advance

end Sys2Proof.Machine
end

