-- ==== Sys2Proof/Machine/ControlFlow.lean ====
section
/-! DEFINITION. Control flow, SYS and UNKNOWN (40_control_flow.md). -/

namespace Sys2Proof.Machine

/-- SYS nnn: no operation (R140). -/
def execSys (_nnn : Addr12) (s : State) : Host.Outcome State Fault Refusal := .next s.advance

/-- RET: the popped value is the new PC; a fault when the stack is empty (R141). -/
def execRet (s : State) : Host.Outcome State Fault Refusal :=
  if h : s.sp.val ≠ 16 then .next ((s.pop h).setPc (s.top h)) else .next (s.takeFault .stackUnderflow)

/-- JP nnn (R142). -/
def execJp (nnn : Addr12) (s : State) : Host.Outcome State Fault Refusal := .next (s.setPc (zextAddr nnn))

/-- CALL nnn: pushes PC + 2; a fault when the stack is full (R143). -/
def execCall (nnn : Addr12) (s : State) : Host.Outcome State Fault Refusal :=
  if s.sp.val = 0 then .next (s.takeFault .stackOverflow)
  else .next ((s.push (s.pc + 2#16)).setPc (zextAddr nnn))

/-- SE Vx, kk (R144). -/
def execSeByte (x : RegIdx) (kk : Byte) (s : State) : Host.Outcome State Fault Refusal :=
  .next (s.skipIf (s.reg x == kk))

/-- SNE Vx, kk (R145). -/
def execSneByte (x : RegIdx) (kk : Byte) (s : State) : Host.Outcome State Fault Refusal :=
  .next (s.skipIf (s.reg x != kk))

/-- SE Vx, Vy; n is ignored (R146). -/
def execSeReg (x y : RegIdx) (_n : Nibble) (s : State) : Host.Outcome State Fault Refusal :=
  .next (s.skipIf (s.reg x == s.reg y))

/-- SNE Vx, Vy; n is ignored (R147). -/
def execSneReg (x y : RegIdx) (_n : Nibble) (s : State) : Host.Outcome State Fault Refusal :=
  .next (s.skipIf (s.reg x != s.reg y))

/-- JP V0, nnn: the sum modulo 2^16 (R148). -/
def execJpV0 (nnn : Addr12) (s : State) : Host.Outcome State Fault Refusal :=
  .next (s.setPc (zextAddr nnn + zextByte (s.reg 0x0#4)))

/-- UNKNOWN: no operation (R149). -/
def execUnknown (_w : Word) (s : State) : Host.Outcome State Fault Refusal := .next s.advance

end Sys2Proof.Machine
end

