-- ==== Sys2Proof/Machine/Display.lean ====
section
/-! DEFINITION. CLS and DRW, the only writers of the pixel map (43_display.md). -/

namespace Sys2Proof.Machine

/-- A blit under way: the map, and whether a pixel went from set to unset so far. -/
structure Blit where
  pix : Pixmap
  collision : Bool
deriving DecidableEq, Repr

/-- One sprite bit at (px, py): a set bit toggles the pixel, and is a collision when the pixel was set; a position off
the grid is dropped (R222). -/
def drawBit (px py : Nat) (bit : Bool) (d : Blit) : Blit :=
  if bit && decide (px < Config.columns ∧ py < Config.rows) then
    { pix := d.pix.toggle px py, collision := d.collision || d.pix.get px py }
  else d

/-- The bits of one row, from column `px` on. -/
def drawBits (py : Nat) : Nat → List Bool → Blit → Blit
  | _, [], d => d
  | px, b :: bs, d => drawBits py (px + 1) bs (drawBit px py b d)

/-- The bytes of a sprite with its left column at `x0`, from row `py` on (R221, R222). -/
def drawRows (x0 : Nat) : Nat → List Byte → Blit → Blit
  | _, [], d => d
  | py, b :: bs, d => drawRows x0 (py + 1) bs (drawBits py x0 (spriteBits b) d)

/-- CLS (R220). -/
def execCls (s : State) : Host.Outcome State Fault Refusal := .next (s.setPix Pixmap.clear).advance

/-- DRW Vx, Vy, n: the coordinates are read before VF is written, the start is not wrapped, VF ends as the collision
(R222). -/
def execDrw (x y : RegIdx) (n : Nibble) (s : State) : Host.Outcome State Fault Refusal :=
  let d := drawRows (s.reg x).toNat (s.reg y).toNat (s.sprite n.toNat) { pix := s.pix, collision := false }
  .next ((s.setReg flagReg (flag d.collision)).setPix d.pix).advance

end Sys2Proof.Machine
end

