-- ==== Sys2Proof/Machine/IndexMemory.lean ====
section
/-! DEFINITION. The index register and memory transfer (42_index_memory.md). I is changed by LD I, ADD I and LD F only
(R206; 10_state.md R34). -/

namespace Sys2Proof.Machine

/-- LD I, nnn (R200). -/
def execLdI (nnn : Addr12) (s : State) : Host.Outcome State Fault Refusal :=
  .next (s.setIndex (zextAddr nnn)).advance

/-- ADD I, Vx, modulo 2^16; VF is not written (R201). -/
def execAddI (x : RegIdx) (s : State) : Host.Outcome State Fault Refusal :=
  .next (s.setIndex (s.i + zextByte (s.reg x))).advance

/-- LD F, Vx (R202). -/
def execLdF (x : RegIdx) (s : State) : Host.Outcome State Fault Refusal :=
  .next (s.setIndex (glyphAddress (s.reg x))).advance

/-- LD B, Vx: hundreds, tens, units at EA(I), EA(I + 1), EA(I + 2) (R203). -/
def execLdB (x : RegIdx) (s : State) : Host.Outcome State Fault Refusal :=
  let vx := s.reg x
  .next (((s.store (ea s.i 0) (hundreds vx)).store (ea s.i 1) (tens vx)).store (ea s.i 2) (units vx)).advance

/-- LD [I], Vx: V0..Vx, inclusive (R204). -/
def execLdMemVx (x : RegIdx) (s : State) : Host.Outcome State Fault Refusal :=
  .next (s.storeRegs (x.toNat + 1)).advance

/-- LD Vx, [I]: V0..Vx, inclusive (R205). -/
def execLdVxMem (x : RegIdx) (s : State) : Host.Outcome State Fault Refusal :=
  .next (s.loadRegs (x.toNat + 1)).advance

end Sys2Proof.Machine
end

