-- ==== Sys2Proof/Machine/TimersKeys.lean ====
section
/-! DEFINITION. The timer and keyboard instructions (44_timers_keys.md). The keyboard is never changed by an instruction. -/

namespace Sys2Proof.Machine

/-- LD Vx, DT (R240). -/
def execLdVxDt (x : RegIdx) (s : State) : Host.Outcome State Fault Refusal := .next (s.setReg x s.dt).advance

/-- LD DT, Vx (R241). -/
def execLdDtVx (x : RegIdx) (s : State) : Host.Outcome State Fault Refusal := .next (s.setDelay (s.reg x)).advance

/-- LD ST, Vx (R242). -/
def execLdStVx (x : RegIdx) (s : State) : Host.Outcome State Fault Refusal := .next (s.setSound (s.reg x)).advance

/-- SKP Vx (R243). -/
def execSkp (x : RegIdx) (s : State) : Host.Outcome State Fault Refusal :=
  .next (s.skipIf (s.keyDown (keyIndex (s.reg x))))

/-- SKNP Vx (R244). -/
def execSknp (x : RegIdx) (s : State) : Host.Outcome State Fault Refusal :=
  .next (s.skipIf (!s.keyDown (keyIndex (s.reg x))))

/-- LD Vx, K: the lowest pressed key; with none pressed the step is Blocked and changes nothing (R250). -/
def execLdVxK (x : RegIdx) (s : State) : Host.Outcome State Fault Refusal :=
  match s.lowestKey with
  | some k => .next (s.setReg x (k.setWidth 8)).advance
  | none => .next s

end Sys2Proof.Machine
end

