-- ==== Sys2Proof/Machine/Scheduler.lean ====
section
/-! DEFINITION. The Executor's step and the Cycle Scheduler (60_exceptions.md R320 to R327). -/

namespace Sys2Proof.Machine

/-- The outcome of an Executor step (R320). -/
inductive StepOutcome where
  | executed
  | blocked
  | faulted (cause : FaultCause)
deriving DecidableEq, Repr

/-- Which outcome the step of instruction `i` has in state `s` (R320): only CALL and RET fault, each on one condition
(R300, R306), and only Fx0A blocks, with no key pressed (44_timers_keys.md R250). The state that the step leaves is
`exec i s` (log 11). -/
def stepOutcome (i : Instr) (s : State) : StepOutcome :=
  match i with
  | .call _ => if s.sp.val = 0 then .faulted .stackOverflow else .executed
  | .ret => if s.sp.val = 16 then .faulted .stackUnderflow else .executed
  | .ldVxK _ => if s.lowestKey.isSome then .executed else .blocked
  | .sys _ | .cls | .jp _ | .seByte _ _ | .sneByte _ _ | .seReg _ _ _ | .ldByte _ _ | .addByte _ _ | .ldReg _ _
  | .orReg _ _ | .andReg _ _ | .xorReg _ _ | .addReg _ _ | .sub _ _ | .shr _ _ | .subn _ _ | .shl _ _
  | .sneReg _ _ _ | .ldI _ | .jpV0 _ | .rnd _ _ | .drw _ _ _ | .skp _ | .sknp _ | .ldVxDt _ | .ldDtVx _
  | .ldStVx _ | .addI _ | .ldF _ | .ldB _ | .ldMemVx _ | .ldVxMem _ | .unknown _ => .executed

/-- A timer counts down by 1 and stops at 0 (R324). -/
def countDown (t : Byte) : Byte := if t = 0#8 then 0#8 else t - 1#8

/-- The tick: both timers, then both signals (R324, R325). -/
def State.tick (s : State) : State :=
  { s with dt := countDown s.dt, st := countDown s.st, displaySignal := true, audioSignal := true }

/-- One more Executed step in the window: the ninth ends it with the tick (R322, R326). -/
def State.countCycle (s : State) : State :=
  if h : s.cycles.val + 1 < 9 then s.setCycles ⟨s.cycles.val + 1, h⟩ else (s.setCycles 0).tick

/-- Cycle accounting after a step (R322). -/
def State.account (s : State) (o : StepOutcome) : State :=
  match o with
  | .executed => s.countCycle
  | .blocked => s
  | .faulted _ => s

/-- The step of a given instruction, and its accounting. -/
def stepInstr (i : Instr) (s : State) : Host.Outcome State Fault Refusal :=
  match exec i s with
  | .next t => .next (t.account (stepOutcome i s))
  | .fault r => .fault r
  | .refused r => .refused r

/-- Fetch, decode, execute at most one instruction, and account for it (R320, R322). -/
def stepAndAccount (s : State) : Host.Outcome State Fault Refusal := stepInstr s.instrAtPc s

/-- One iteration while Running: a stop request first, then a breakpoint at PC, then the step (R306, R321). -/
def iteration (s : State) : Host.Outcome State Fault Refusal :=
  if s.stopRequest then .next ((s.setStopRequest false).stopFor .stopRequested)
  else if s.breakpoints.contains s.pc then .next (s.stopFor (.breakpoint s.pc))
  else stepAndAccount s

/-- The tick loop's turn: an iteration while Running; while Stopped no iteration runs and all state is kept
(R321, R361; log 10). -/
def tickLoop (s : State) : Host.Outcome State Fault Refusal := if s.running then iteration s else .next s

end Sys2Proof.Machine
end

