-- ==== Sys2Proof/Machine/Control.lean ====
section
/-! DEFINITION. The collaborator interfaces and the run controller (60_exceptions.md R340 to R358). Each action gives the
state after it and the engine's answer. -/

namespace Sys2Proof.Machine

/-- `run()` (R355, R304). -/
def State.run (s : State) : State × Report :=
  if s.fault.isSome then (s, .engineFaulted)
  else if s.running then (s, .ignored)
  else (s.start, .done)

/-- `stop()` (R356). -/
def State.stop (s : State) : State × Report :=
  if s.running then (s.setStopRequest true, .done) else (s, .ignored)

/-- `addBreakpoint(addr)` (R350). -/
def State.addBreakpoint (s : State) (addr : Word) : State × Report :=
  (s.setBreakpoints (s.breakpoints ++ [addr]), .done)

/-- The entries of a sequence with their 1-based positions, the first of which is `id`. -/
def numbered (id : Nat) : List Word → List (Nat × Word)
  | [] => []
  | a :: as => (id, a) :: numbered (id + 1) as

/-- `listBreakpoints()` (R351). -/
def State.listBreakpoints (s : State) : State × Report := (s, .breakpointList (numbered 1 s.breakpoints))

/-- `deleteBreakpoint(id)` (R352). -/
def State.deleteBreakpoint (s : State) (id : Nat) : State × Report :=
  if id = 0 ∨ s.breakpoints.length < id then (s, .invalidId)
  else (s.setBreakpoints (s.breakpoints.eraseIdx (id - 1)), .done)

/-- `clearBreakpoints()` (R353). -/
def State.clearBreakpoints (s : State) : State × Report := (s.setBreakpoints [], .done)

/-- What a state dump reads (R344). -/
def State.dumped (s : State) : Dump :=
  { v := s.v, i := s.i, pc := s.pc, sp := s.sp, stack := s.stack, dt := s.dt, st := s.st, pix := s.pix,
    breakpoints := s.breakpoints, running := s.running, cycles := s.cycles, fault := s.fault,
    stopReason := s.stopReason }

/-- The state dump (R344). -/
def State.dump (s : State) : State × Report := (s, .stateDump s.dumped)

/-- The display sink takes its signal and reads the live map (R341; log 7). -/
def State.takeDisplay (s : State) : State × Report :=
  if s.displaySignal then (s.setDisplaySignal false, .display s.pix) else (s, .noSignal)

/-- The tone is on while ST is not 0 (R342). -/
def State.toneOn (s : State) : Bool := s.st != 0#8

/-- The audio sink takes its signal and reads the tone state (R342; log 7). -/
def State.takeAudio (s : State) : State × Report :=
  if s.audioSignal then (s.setAudioSignal false, .tone s.toneOn) else (s, .noSignal)

/-- Reset: every field but MEM, the breakpoints and the model's own fields to its reset value (70_reset_and_hazards.md
R400; 10_state.md R53). -/
def State.resetFields (s : State) : State :=
  { State.reset with
    mem := s.mem, breakpoints := s.breakpoints, draws := s.draws, agenda := s.agenda, schedule := s.schedule,
    report := s.report }

/-- Reset, zero 0x200..0xFFF, copy the image to 0x200 (20_memory.md R81). -/
def State.loadImage (s : State) (b : List Byte) : State :=
  { s.resetFields with mem := s.mem.clearProgram.writeList Config.programBase b }

/-- `loadProgram(image)` (R345). -/
def State.loadProgram (s : State) (image : Image) : State × Report :=
  if s.running then (s, .loadWhileRunning)
  else match image with
    | .unreadable => (s, .loadUnreadable)
    | .bytes b => if Config.maxImage < b.length then (s, .loadTooLarge) else (s.loadImage b, .done)

/-- The answer to an action is left in the model's own field `report` (log 6). -/
def answered (p : State × Report) : Host.Outcome State Fault Refusal := .next (p.1.setReport p.2)

/-- The debugger's `step()`: one step and its accounting, with no stop-request check and no breakpoint check
(R357, R304). -/
def commandStep (s : State) : Host.Outcome State Fault Refusal :=
  if s.fault.isSome then answered (s, .engineFaulted)
  else if s.running then answered (s, .ignored)
  else match stepAndAccount s with
    | .next t => answered (t, .done)
    | .fault r => .fault r
    | .refused r => .refused r

/-- One action of one agent (R331, R340). -/
def perform (a : Action) (s : State) : Host.Outcome State Fault Refusal :=
  match a with
  | .iteration => tickLoop s
  | .setKeyState code pressed => .next (s.setKey code pressed)
  | .takeDisplay => answered s.takeDisplay
  | .takeAudio => answered s.takeAudio
  | .dump => answered s.dump
  | .loadProgram image => answered (s.loadProgram image)
  | .addBreakpoint addr => answered (s.addBreakpoint addr)
  | .listBreakpoints => answered s.listBreakpoints
  | .deleteBreakpoint id => answered (s.deleteBreakpoint id)
  | .clearBreakpoints => answered s.clearBreakpoints
  | .run => answered s.run
  | .stop => answered s.stop
  | .step => commandStep s

/-- The action that happens next, and the state without it: the agenda's first one, or, when the agenda is empty, the one
that the schedule gives (R331; log 2). -/
def State.turn (s : State) : Action × State :=
  match s.agenda with
  | a :: rest => (a, s.setAgenda rest)
  | [] =>
    match s.schedule with
    | .tickLoop => (.iteration, s)
    | .free n => (Config.freeAction n, s.setSchedule (.free (n + 1)))

/-- The action that happens next is performed (R331). -/
def nextAction (s : State) : Host.Outcome State Fault Refusal := perform s.turn.1 s.turn.2

/-- The engine Running at PC, with nothing before the step of the next iteration: the tick loop's turn, no stop request,
no fault, no breakpoint at PC (log 4). -/
def State.aboutToStep (s : State) : State :=
  { s with
    running := true, stopRequest := false, fault := none, agenda := [], schedule := .tickLoop
    breakpoints := s.breakpoints.filter fun b => b != s.pc }

/-- The word `w` stored where `Fetch(PC)` reads it (20_memory.md R74). -/
def State.placeWord (s : State) (w : Word) : State :=
  (s.store (ea s.pc 0) (w.extractLsb' 8 8)).store (ea s.pc 1) (w.extractLsb' 0 8)

end Sys2Proof.Machine
end

