-- ==== Sys2Proof/Machine/Step.lean ====
section
/-! DEFINITION. One step of the machine: one atomic action of one agent (60_exceptions.md R331), and the placing of a word
where the next step fetches its instruction. -/

namespace Sys2Proof.Machine

/-- The action of the agent that acts next (log 2). -/
def step (s : State) : Host.Outcome State Fault Refusal := nextAction s

/-- `s` with the instruction `w` of `nbits` bits at PC, big-endian, and the engine Running, as it is after a program load
and `run()`, so that the next step fetches and runs it (20_memory.md R74; log 4). -/
def State.withFetchWord (s : State) (nbits w : Nat) : State :=
  s.aboutToStep.placeWord (BitVec.ofNat 16 (w % 2 ^ nbits))

end Sys2Proof.Machine
end

