-- ==== Sys2Proof/Safety.lean ====
section
/-! DEFINITION. What counts as a safe state and as an unchanged part of a state, in the terms the statements use. -/

namespace Sys2Proof.Machine

/-- A state in which no fault is recorded: a run is safe while its states are (60_exceptions.md R300, R302). -/
def Safe (s : State) : Prop := s.fault = none

/-- The condition on which a cause is raised, as it still stands after the fault, since the faulting instruction changes
nothing (60_exceptions.md R300, R302). -/
def FaultCondition (s : State) : FaultCause → Prop
  | .stackOverflow => s.sp.val = 0
  | .stackUnderflow => s.sp.val = 16

/-- The invariant of the machine. -/
structure Inv (s : State) : Prop where
  /-- memory is in its canonical form, with no byte outside 0x000..0xFFF (20_memory.md R70) -/
  memCanonical : Memory.wf s.mem = true
  /-- a Running engine holds no fault (60_exceptions.md R302, R304) -/
  runningUnfaulted : s.running = true → s.fault = none
  /-- a stop request is pending only while Running (R356) -/
  requestOnlyRunning : s.stopRequest = true → s.running = true
  /-- a fault record says Faulted, holds the PC at which the engine still is, and its condition still holds (R302) -/
  faultRecorded : ∀ f, s.fault = some f → s.stopReason = some .faulted ∧ f.pc = s.pc ∧ FaultCondition s f.cause
  /-- Faulted is the reason only of an engine that holds a fault (R302, R345) -/
  faultedHasRecord : s.stopReason = some .faulted → s.fault.isSome = true

/-- Every general register is as before. -/
def SameRegs (s t : State) : Prop := ∀ r : RegIdx, t.reg r = s.reg r

/-- Every byte of memory reads as before. -/
def SameMem (s t : State) : Prop := ∀ a : Nat, t.byteAt a = s.byteAt a

/-- The stack pointer and every stack slot are as before. -/
def SameStack (s t : State) : Prop := t.sp = s.sp ∧ t.stack = s.stack

/-- Both timers are as before. -/
def SameTimers (s t : State) : Prop := t.dt = s.dt ∧ t.st = s.st

/-- The keys are as before. -/
def SameKeys (s t : State) : Prop := t.key = s.key

/-- The scheduler's and the controller's fields are as before (10_state.md R30, below the line). -/
def SameControl (s t : State) : Prop :=
  t.breakpoints = s.breakpoints ∧ t.running = s.running ∧ t.cycles = s.cycles ∧ t.stopRequest = s.stopRequest ∧
    t.fault = s.fault ∧ t.stopReason = s.stopReason ∧ t.displaySignal = s.displaySignal ∧
    t.audioSignal = s.audioSignal

/-- The model's own agenda, schedule and report are as before (the draw counter is named where it changes). -/
def SameModel (s t : State) : Prop := t.agenda = s.agenda ∧ t.schedule = s.schedule ∧ t.report = s.report

/-- Everything but the general registers, PC and the draw counter is as before. -/
def SameButRegsPcDraws (s t : State) : Prop :=
  t.i = s.i ∧ SameStack s t ∧ SameTimers s t ∧ SameMem s t ∧ t.pix = s.pix ∧ SameKeys s t ∧ SameControl s t ∧
    SameModel s t

/-- Everything but the general registers and PC is as before. -/
def SameButRegsPc (s t : State) : Prop := SameButRegsPcDraws s t ∧ t.draws = s.draws

/-- Everything but PC is as before. -/
def SameButPc (s t : State) : Prop := SameRegs s t ∧ SameButRegsPc s t

/-- Everything but the memory and PC is as before. -/
def SameButMemPc (s t : State) : Prop :=
  SameRegs s t ∧ t.i = s.i ∧ SameStack s t ∧ SameTimers s t ∧ t.pix = s.pix ∧ SameKeys s t ∧ SameControl s t ∧
    SameModel s t ∧ t.draws = s.draws

/-- Everything but I and PC is as before. -/
def SameButIndexPc (s t : State) : Prop :=
  SameRegs s t ∧ SameStack s t ∧ SameTimers s t ∧ SameMem s t ∧ t.pix = s.pix ∧ SameKeys s t ∧ SameControl s t ∧
    SameModel s t ∧ t.draws = s.draws

/-- Everything but the stack and PC is as before. -/
def SameButStackPc (s t : State) : Prop :=
  SameRegs s t ∧ t.i = s.i ∧ SameTimers s t ∧ SameMem s t ∧ t.pix = s.pix ∧ SameKeys s t ∧ SameControl s t ∧
    SameModel s t ∧ t.draws = s.draws

/-- Everything but the timers and PC is as before. -/
def SameButTimersPc (s t : State) : Prop :=
  SameRegs s t ∧ t.i = s.i ∧ SameStack s t ∧ SameMem s t ∧ t.pix = s.pix ∧ SameKeys s t ∧ SameControl s t ∧
    SameModel s t ∧ t.draws = s.draws

/-- Everything but the general registers, the pixel map and PC is as before. -/
def SameButRegsPixPc (s t : State) : Prop :=
  t.i = s.i ∧ SameStack s t ∧ SameTimers s t ∧ SameMem s t ∧ SameKeys s t ∧ SameControl s t ∧ SameModel s t ∧
    t.draws = s.draws

/-- PC went forward by `d`, modulo 2^16 (10_state.md R36). -/
def PcBy (d : Nat) (s t : State) : Prop := t.pc.toNat = (s.pc.toNat + d) % 0x10000

/-- A sprite of `n` bytes at I, with its top left corner at (V[x], V[y]) of `s`, has a set bit at column `px` and row
`py`: bit 7 of a byte is its leftmost pixel, and nothing is wrapped (43_display.md R221, R222). -/
def SpriteBit (s : State) (x y : RegIdx) (n : Nibble) (px py : Nat) : Prop :=
  (s.reg x).toNat ≤ px ∧ px < (s.reg x).toNat + 8 ∧ (s.reg y).toNat ≤ py ∧ py < (s.reg y).toNat + n.toNat ∧
    (s.byteAt (ea s.i (py - (s.reg y).toNat))).toNat.testBit (7 - (px - (s.reg x).toNat)) = true

/-- The fields that a program reads or writes agree (10_state.md R30, above the line), and so does the next random
byte. -/
def SameArchitecture (s t : State) : Prop :=
  SameRegs s t ∧ t.i = s.i ∧ t.pc = s.pc ∧ SameStack s t ∧ SameTimers s t ∧ SameMem s t ∧ t.pix = s.pix ∧
    SameKeys s t ∧ t.draws = s.draws

/-- The next step of the machine runs the instruction `i`: it stands at PC, and either it is the tick loop's turn while
Running, with no stop request and no breakpoint at PC, or the debugger steps a Stopped engine that holds no fault
(60_exceptions.md R320, R321, R357). -/
def Executes (s : State) (i : Instr) : Prop :=
  s.instrAtPc = i ∧
    ((s.turn.1 = .iteration ∧ s.running = true ∧ s.stopRequest = false ∧ s.pc ∉ s.breakpoints) ∨
      (s.turn.1 = .step ∧ s.running = false ∧ s.fault = none))

/-- The next step of the machine is a program load that is not refused (60_exceptions.md R345). -/
def Loads (s : State) : Prop :=
  s.running = false ∧ ∃ b : List Byte, s.turn.1 = .loadProgram (.bytes b) ∧ b.length ≤ 0xE00

/-- An endless run of the machine (60_exceptions.md R331, an interleaving). -/
def Run (r : Nat → State) : Prop := ∀ n, step (r n) = .next (r (n + 1))

/-- A fair run: the tick loop, while Running, has its turn infinitely often (60_exceptions.md R331). -/
def Fair (r : Nat → State) : Prop := ∀ n, ∃ m, n ≤ m ∧ ((r m).running = true → (r m).turn.1 = .iteration)

end Sys2Proof.Machine
end

