-- ==== Sys2Proof/Certificates/Slice0/Obligations.lean ====
section
/-! DEFINITION. The statements for the provers. A docstring names the spec's sentence a statement formalises; where it rests on
a decision D<n> of 92_eei_decisions.md, which the spec marks as its own choice (log 1), or on a convention of the model
(log <n>), it says so. -/

open Sys2Proof Sys2Proof.Machine

/-! ## The codec -/

/-- Encoding and decoding agree: no bit of an operand is dropped (30_encoding.md sections 2 and 3; the list of variants is
the spec's decision D17). -/
def Obligations.DecodeOfEncodeIsTheInstruction : Prop :=
  ∀ i : Instr, WellFormed i = true → decode (encode i) = i

/-- The other direction: encoding what a word decodes to gives the word back, and what it decodes to is well formed
(30_encoding.md section 2; D17; that the ignored fields are kept is the model's choice, log 12). -/
def Obligations.EncodeOfDecodeIsTheWord : Prop :=
  ∀ w : Word, encode (decode w) = w ∧ WellFormed (decode w) = true

/-- Words written out from the spec's patterns, one or more of every family, and the vectors E1 to E12 of
95_test_vectors.md (D17). -/
def Obligations.SpecWordsDecode : Prop :=
  decode 0x00E0#16 = .cls ∧ decode 0x00EE#16 = .ret ∧ decode 0x0000#16 = .sys 0x000#12 ∧
  decode 0x00E1#16 = .sys 0x0E1#12 ∧ decode 0x5121#16 = .seReg 0x1#4 0x2#4 0x1#4 ∧
  decode 0x9AB7#16 = .sneReg 0xA#4 0xB#4 0x7#4 ∧ decode 0x8008#16 = .unknown 0x8008#16 ∧
  decode 0x800F#16 = .unknown 0x800F#16 ∧ decode 0xE000#16 = .unknown 0xE000#16 ∧
  decode 0xF0FF#16 = .unknown 0xF0FF#16 ∧ decode 0xFA29#16 = .ldF 0xA#4 ∧
  decode 0xD000#16 = .drw 0x0#4 0x0#4 0x0#4 ∧ decode 0x6005#16 = .ldByte 0x0#4 0x05#8 ∧
  decode 0x7003#16 = .addByte 0x0#4 0x03#8 ∧ decode 0x2300#16 = .call 0x300#12 ∧
  decode 0x8126#16 = .shr 0x1#4 0x2#4 ∧ decode 0xE4A1#16 = .sknp 0x4#4 ∧ decode 0xF365#16 = .ldVxMem 0x3#4

/-- The operand fields are the five masks of every word, and the top nibble (30_encoding.md section 1). -/
def Obligations.FieldsAreTheFixedMasks : Prop :=
  ∀ w : Word,
    (fields w).nnn.toNat = w.toNat &&& 0x0FFF ∧ (fields w).x.toNat = (w.toNat &&& 0x0F00) >>> 8 ∧
    (fields w).y.toNat = (w.toNat &&& 0x00F0) >>> 4 ∧ (fields w).kk.toNat = w.toNat &&& 0x00FF ∧
    (fields w).n.toNat = w.toNat &&& 0x000F ∧ (topNibble w).toNat = w.toNat >>> 12

/-- The words that decode to UNKNOWN are exactly those that R108 lists, which match no variant; none of them decodes to SYS,
and UNKNOWN executes as a no-op that advances PC (R111; the list of variants that R108 derives is the spec's decision D17,
log 1). -/
def Obligations.UnknownWordsAreInert : Prop :=
  ∀ (w : Word) (s : State),
    (decode w = .unknown w ↔
      (w.toNat / 0x1000 = 0x8 ∧ 8 ≤ w.toNat % 0x10 ∧ w.toNat % 0x10 ≠ 0xE) ∨
      (w.toNat / 0x1000 = 0xE ∧ w.toNat % 0x100 ≠ 0x9E ∧ w.toNat % 0x100 ≠ 0xA1) ∨
      (w.toNat / 0x1000 = 0xF ∧ w.toNat % 0x100 ∉ [0x07, 0x0A, 0x15, 0x18, 0x1E, 0x29, 0x33, 0x55, 0x65])) ∧
    (∀ v, decode w = .unknown v → v = w) ∧
    (∀ nnn, decode w = .sys nnn → decode w ≠ .unknown w) ∧
    ∃ t, exec (.unknown w) s = .next t ∧ PcBy 2 s t ∧ SameButPc s t

/-! ## Fetch and step -/

/-- An instruction fetch reads two bytes, the higher half first, each address modulo 0x1000 (20_memory.md section 2; the
spec's decisions D1 and D3). -/
def Obligations.FetchIsBigEndianModuloMemory : Prop :=
  ∀ s : State,
    s.fetch.toNat =
      0x100 * (s.byteAt (s.pc.toNat % 0x1000)).toNat + (s.byteAt ((s.pc.toNat + 1) % 0x1000)).toNat ∧
    s.instrAtPc = decode s.fetch

/-- A step of a Running engine with no stop request and no breakpoint at PC is the meaning of the instruction that the two
bytes at PC decode to, and then the cycle accounting, whenever it is the tick loop's turn; `r` is the state without that
turn (60_exceptions.md sections 3 and 4; the spec's decision D19; whose turn it is is log 2). -/
def Obligations.StepRunsTheDecodedInstruction : Prop :=
  ∀ (s r : State) (w : Word), s.turn = (.iteration, r) → s.running = true → s.stopRequest = false →
    s.pc ∉ s.breakpoints →
    (s.byteAt (s.pc.toNat % 0x1000) ++ s.byteAt ((s.pc.toNat + 1) % 0x1000) : BitVec 16) = w →
    ∃ t, exec (decode w) r = .next t ∧ step s = .next (t.account (stepOutcome (decode w) r))

/-- The debugger's `step` of a Stopped engine without a fault is one such step with its accounting, whatever breakpoints
and stop requests there are, and the engine stays Stopped; with a fault it is refused, while Running it is ignored
(60_exceptions.md section 7, `step()`; the spec's decisions D20 and D34; the turn and the report are logs 2 and 6). -/
def Obligations.DebuggerStepRunsOneInstruction : Prop :=
  ∀ s r : State, s.turn = (.step, r) →
    (s.fault = none → s.running = false →
      ∃ t u, exec s.instrAtPc r = .next t ∧ u = t.account (stepOutcome s.instrAtPc r) ∧ u.running = false ∧
        step s = .next (u.setReport .done)) ∧
    (s.fault ≠ none → step s = .next (r.setReport .engineFaulted)) ∧
    (s.fault = none → s.running = true → step s = .next (r.setReport .ignored))

/-- No step of the machine, whatever the state and the action, ends in a fault or a refusal of the model: the process lives
on (60_exceptions.md section 1; the spec's decisions D10 and D34). -/
def Obligations.EveryStepAnswersANextState : Prop := ∀ s : State, ∃ t, step s = .next t

/-! ## Cycles, ticks, timers -/

/-- The tick decrements both timers by 1 if nonzero, so that neither goes below 0, then sets the signals; nothing else
changes (60_exceptions.md section 4, R324; that the tick sets both signals is R325, the spec's decision D28, log 1). -/
def Obligations.TickCountsBothTimersDown : Prop :=
  ∀ s : State, s.tick.dt.toNat = s.dt.toNat - 1 ∧ s.tick.st.toNat = s.st.toNat - 1 ∧
    s.tick = { s with dt := s.tick.dt, st := s.tick.st, displaySignal := true, audioSignal := true }

/-- An Executed step is one cycle and every ninth one ticks; a Blocked or a faulting step is no cycle. So nine Executed
steps, counted from any point of a window, count each timer down once (60_exceptions.md section 4; 70_reset_and_hazards.md
section 4; the spec's decisions D19, D23 and D38). -/
def Obligations.NineExecutedStepsAreOneTick : Prop :=
  (∀ s : State, s.account .blocked = s ∧ (∀ c, s.account (.faulted c) = s) ∧
    (s.cycles.val < 8 → ∃ c : Fin 9, c.val = s.cycles.val + 1 ∧ s.account .executed = { s with cycles := c }) ∧
    (s.cycles.val = 8 → s.account .executed = { s.tick with cycles := 0 })) ∧
  ∀ s : State, ∃ t, (fun u : State => u.account .executed)^[9] s = t ∧ t.cycles = s.cycles ∧
    t.dt.toNat = s.dt.toNat - 1 ∧ t.st.toNat = s.st.toNat - 1 ∧ t.displaySignal = true ∧ t.audioSignal = true ∧
    t.pc = s.pc ∧ SameRegs s t ∧ SameMem s t

/-- A step that makes an attempt at an `Fx0A`, an iteration or a debugger's step, with no key pressed is Blocked: nothing
changes but the turn and a report, so that no tick completes, no cycle is counted and PC stays. With a key pressed it is
Executed and counts as the next cycle of the window (44_timers_keys.md R251, R250, R252; that nothing at all changes, and the
debugger's attempt, are the spec's decisions D19 and D20; the turn and the report are logs 2 and 6). -/
def Obligations.BlockedKeyWaitFreezesTheTick : Prop :=
  ∀ (s : State) (x : RegIdx), Executes s (.ldVxK x) →
    ((∀ k, s.keyDown k = false) →
      step s = .next (if s.running = true then s.turn.2 else s.turn.2.setReport .done)) ∧
    (∀ k, s.keyDown k = true →
      ∃ t, step s = .next t ∧ t.cycles.val = (s.cycles.val + 1) % 9 ∧
        (s.cycles.val = 8 → t.dt.toNat = s.dt.toNat - 1 ∧ t.st.toNat = s.st.toNat - 1 ∧ t.displaySignal = true ∧
          t.audioSignal = true) ∧
        (s.cycles.val < 8 → t.dt = s.dt ∧ t.st = s.st ∧ t.displaySignal = s.displaySignal ∧
          t.audioSignal = s.audioSignal))

/-- DT is written by Fx15 and the tick and read by Fx07; ST is written by Fx18 and the tick, no instruction reads it, and the
audio sink reads it through its signal; the tick clamps both at 0; both are 0 at reset (10_state.md R40, R41). In a step, the
base of a timer is its value or what a load of this step gives it, and the timer ends at the base or, when the step executes
an instruction as the ninth of the window, one below it; only a program load's reset does otherwise (70_reset_and_hazards.md
section 1). That the tone is on while ST is not 0 is the spec's decision D27, the turn is log 2. -/
def Obligations.TimersAreWrittenByTheirLoadsAndTheTick : Prop :=
  (∀ (i : Instr) (s t : State), exec i s = .next t →
    (t.dt = s.dt ∨ ∃ x, i = .ldDtVx x ∧ t.dt = s.reg x) ∧ (t.st = s.st ∨ ∃ x, i = .ldStVx x ∧ t.st = s.reg x)) ∧
  (∀ (x : RegIdx) (s : State),
    (∃ t, exec (.ldVxDt x) s = .next t ∧ t.reg x = s.dt) ∧ (∃ t, exec (.ldDtVx x) s = .next t ∧ t.dt = s.reg x) ∧
    (∃ t, exec (.ldStVx x) s = .next t ∧ t.st = s.reg x)) ∧
  (∀ s : State, s.tick.dt.toNat = s.dt.toNat - 1 ∧ s.tick.st.toNat = s.st.toNat - 1) ∧
  (∀ (i : Instr) (s t : State) (b : Byte), exec i s = .next t →
    ∃ u, exec i (s.setSound b) = .next u ∧ u.setSound t.st = t) ∧
  (∀ s : State, s.audioSignal = true → s.takeAudio.2 = .tone (s.st != 0#8)) ∧
  State.reset.dt = 0#8 ∧ State.reset.st = 0#8 ∧
  (∀ s t : State, step s = .next t → (Loads s ∧ t.dt = 0#8 ∧ t.st = 0#8) ∨
    ∃ d e : Byte, (d = s.dt ∨ ∃ x, Executes s (.ldDtVx x) ∧ d = s.reg x) ∧
      (e = s.st ∨ ∃ x, Executes s (.ldStVx x) ∧ e = s.reg x) ∧
      ((t.dt = d ∧ t.st = e) ∨
        (Executes s s.instrAtPc ∧ s.cycles.val = 8 ∧ t.dt.toNat = d.toNat - 1 ∧ t.st.toNat = e.toNat - 1)))

/-! ## Faults -/

/-- R301: the Executor never fails. Every instruction answers a next state, and only a CALL on a full stack and a RET on an
empty one raise a fault. -/
def Obligations.NothingElseFaults : Prop :=
  ∀ (i : Instr) (s : State), ∃ t, exec i s = .next t ∧
    (¬ ((∃ nnn, i = .call nnn) ∧ s.sp.val = 0) → ¬ (i = .ret ∧ s.sp.val = 16) →
      t.fault = s.fault ∧ t.running = s.running ∧ t.stopReason = s.stopReason)

/-- CALL with SP = 0 and RET with SP = 16 take a fault: the record holds the cause and the PC of the instruction, the engine
stops with reason Faulted, nothing else changes, and no cycle is counted (60_exceptions.md section 1; 40_control_flow.md
section 2; the spec's decisions D10 and D34). -/
def Obligations.StackFaultsAreRecordedAndStopTheEngine : Prop :=
  ∀ s : State,
    (s.sp.val = 0 → ∀ nnn t, t = { s with fault := some ⟨.stackOverflow, s.pc⟩, running := false,
                                           stopReason := some .faulted } →
      exec (.call nnn) s = .next t ∧ t.account (stepOutcome (.call nnn) s) = t) ∧
    (s.sp.val = 16 → ∀ t, t = { s with fault := some ⟨.stackUnderflow, s.pc⟩, running := false,
                                       stopReason := some .faulted } →
      exec .ret s = .next t ∧ t.account (stepOutcome .ret s) = t)

/-- The outcome of a step says what its meaning did: Blocked changed nothing, Fault(cause) recorded that cause and nothing
else, Executed left every field of the scheduler and the controller alone (60_exceptions.md section 3; the spec's decisions
D10 and D19; that the outcome is computed beside the meaning is log 11). -/
def Obligations.StepOutcomeAgreesWithTheMeaning : Prop :=
  ∀ (i : Instr) (s t : State), exec i s = .next t →
    (stepOutcome i s = .blocked → t = s) ∧
    (∀ c, stepOutcome i s = .faulted c →
      t = { s with fault := some ⟨c, s.pc⟩, running := false, stopReason := some .faulted }) ∧
    (stepOutcome i s = .executed → SameControl s t)

/-- A fault is cleared by a successful program load and by nothing else; in every other step of a faulted machine the
record, the registers and PC stay as they are (60_exceptions.md section 1; the spec's decision D34; the turn is log 2). -/
def Obligations.FaultIsClearedOnlyByAProgramLoad : Prop :=
  ∀ (s t : State) (f : FaultRecord), Inv s → s.fault = some f → step s = .next t →
    (t.fault = some f ∧ SameRegs s t ∧ t.pc = s.pc) ∨ (t.fault = none ∧ Loads s)

/-! ## The invariant -/

/-- Every step keeps the invariant: memory stays canonical and inside 0x000..0xFFF, a Running engine holds no fault, a stop
request is pending only while Running, and a fault record agrees with the reason, with PC and with its condition
(60_exceptions.md sections 1 and 7; the spec's decisions D10, D22 and D34; the canonical form is log 8). -/
def Obligations.EveryStepKeepsTheInvariant : Prop :=
  ∀ s t : State, Inv s → step s = .next t → Inv t

/-- The machine at power-on meets the invariant (60_exceptions.md section 6; the values of running, the stop request, the
fault and the stop reason are the spec's decision D24, log 9; the list form of the memory is log 8). -/
def Obligations.PowerOnMeetsTheInvariant : Prop := Inv State.reset

/-! ## Power-on, reset, program load -/

/-- Every field of the state record but MEM at power-on; MEM is the statement FontAtPowerOn (10_state.md section 8;
60_exceptions.md section 6; the spec's decisions D24 and D25 for the fields that the source does not name, log 9). -/
def Obligations.PowerOnState : Prop :=
  (∀ r, State.reset.reg r = 0#8) ∧ State.reset.i = 0#16 ∧ State.reset.pc = 0x200#16 ∧ State.reset.sp.val = 16 ∧
  (∀ j : Fin 16, State.reset.stack[j] = 0#16) ∧ State.reset.dt = 0#8 ∧ State.reset.st = 0#8 ∧
  (∀ px py, State.reset.pixel px py = false) ∧ (∀ k, State.reset.keyDown k = false) ∧
  State.reset.breakpoints = [] ∧ State.reset.running = false ∧ State.reset.cycles.val = 0 ∧
  State.reset.stopRequest = false ∧ State.reset.fault = none ∧ State.reset.stopReason = none ∧
  State.reset.displaySignal = false ∧ State.reset.audioSignal = false

/-- Memory at power-on: the 16 glyphs at 0x000..0x04F, 0 elsewhere (20_memory.md section 1; the spec's decisions D13 and
D25, the glyph bytes from general knowledge). -/
def Obligations.FontAtPowerOn : Prop :=
  (∀ d : Fin 16, ∀ k : Fin 5, (State.reset.byteAt (5 * d.val + k.val)).toNat =
    (([[0xF0, 0x90, 0x90, 0x90, 0xF0], [0x20, 0x60, 0x20, 0x20, 0x70], [0xF0, 0x10, 0xF0, 0x80, 0xF0],
       [0xF0, 0x10, 0xF0, 0x10, 0xF0], [0x90, 0x90, 0xF0, 0x10, 0x10], [0xF0, 0x80, 0xF0, 0x10, 0xF0],
       [0xF0, 0x80, 0xF0, 0x90, 0xF0], [0xF0, 0x10, 0x20, 0x40, 0x40], [0xF0, 0x90, 0xF0, 0x90, 0xF0],
       [0xF0, 0x90, 0xF0, 0x10, 0xF0], [0xF0, 0x90, 0xF0, 0x90, 0x90], [0xE0, 0x90, 0xE0, 0x90, 0xE0],
       [0xF0, 0x80, 0x80, 0x80, 0xF0], [0xE0, 0x90, 0x90, 0x90, 0xE0], [0xF0, 0x80, 0xF0, 0x80, 0xF0],
       [0xF0, 0x80, 0xF0, 0x80, 0x80]] : List (List Nat)).getD d.val []).getD k.val 0) ∧
  ∀ a, 0x50 ≤ a → State.reset.byteAt a = 0#8

/-- A program load while Stopped of an image of at most 0xE00 bytes resets the fields, keeps the font region and the
breakpoints, and leaves the image at 0x200 with zeros after it; a load while Running, of an unreadable file or of a longer
image is refused with no change (20_memory.md section 4; 60_exceptions.md section 6; 70_reset_and_hazards.md section 1; the
spec's decisions D24, D25 and D26). -/
def Obligations.ProgramLoadResetsAndCopies : Prop :=
  (∀ (s : State) (b : List Byte), s.running = false → b.length ≤ 0xE00 →
    ∃ t, s.loadProgram (.bytes b) = (t, .done) ∧
      (∀ a, a < 0x200 → t.byteAt a = s.byteAt a) ∧ (∀ k, k < b.length → t.byteAt (0x200 + k) = b.getD k 0#8) ∧
      (∀ a, 0x200 + b.length ≤ a → t.byteAt a = 0#8) ∧
      (∀ r, t.reg r = 0#8) ∧ t.i = 0#16 ∧ t.pc = 0x200#16 ∧ t.sp.val = 16 ∧ (∀ j : Fin 16, t.stack[j] = 0#16) ∧
      t.dt = 0#8 ∧ t.st = 0#8 ∧ (∀ px py, t.pixel px py = false) ∧ (∀ k, t.keyDown k = false) ∧
      t.breakpoints = s.breakpoints ∧ t.running = false ∧ t.cycles.val = 0 ∧ t.stopRequest = false ∧
      t.fault = none ∧ t.stopReason = none ∧ t.displaySignal = false ∧ t.audioSignal = false) ∧
  (∀ (s : State) (image : Image), s.running = true → s.loadProgram image = (s, .loadWhileRunning)) ∧
  (∀ s : State, s.running = false → s.loadProgram .unreadable = (s, .loadUnreadable)) ∧
  (∀ (s : State) (b : List Byte), s.running = false → 0xE00 < b.length →
    s.loadProgram (.bytes b) = (s, .loadTooLarge))

/-! ## Control flow -/

/-- SYS is a no-op that advances PC (40_control_flow.md section 2, SYS; the spec's decision D38). -/
def Obligations.SysOnlyAdvances : Prop :=
  ∀ (nnn : Addr12) (s : State),
    (nnn ≠ 0x0E0#12 → nnn ≠ 0x0EE#12 → decode (0x0#4 ++ nnn) = .sys nnn) ∧
    ∃ t, exec (.sys nnn) s = .next t ∧ PcBy 2 s t ∧ SameButPc s t

/-- JP goes to nnn and JP V0 to the exact sum of nnn and V0 (40_control_flow.md section 2, JP and JP V0, from general
knowledge; the spec's decisions D4 and D11). -/
def Obligations.JumpsSetPc : Prop :=
  ∀ (nnn : Addr12) (s : State),
    decode (0x1#4 ++ nnn) = .jp nnn ∧ decode (0xB#4 ++ nnn) = .jpV0 nnn ∧
    (∃ t, exec (.jp nnn) s = .next t ∧ t.pc.toNat = nnn.toNat ∧ SameButPc s t) ∧
    ∃ t, exec (.jpV0 nnn) s = .next t ∧ t.pc.toNat = nnn.toNat + (s.reg 0x0#4).toNat ∧ SameButPc s t

/-- CALL with a stack that is not full pushes PC + 2 into the slot below SP and goes to nnn; every other slot stays
(40_control_flow.md section 2, CALL; the spec's decisions D9 and D10). -/
def Obligations.CallPushesTheReturnAddress : Prop :=
  ∀ (nnn : Addr12) (s : State), decode (0x2#4 ++ nnn) = .call nnn ∧
    (s.sp.val ≠ 0 → ∃ t, exec (.call nnn) s = .next t ∧ t.pc.toNat = nnn.toNat ∧ t.sp.val + 1 = s.sp.val ∧
      (∀ j : Fin 16, t.stack[j] = if j.val + 1 = s.sp.val then s.pc + 2#16 else s.stack[j]) ∧ SameButStackPc s t)

/-- RET with a stack that is not empty goes to the value at SP and adds 1 to SP; the slot keeps its value
(40_control_flow.md section 2, RET; the spec's decisions D9 and D10). -/
def Obligations.RetPopsTheReturnAddress : Prop :=
  decode 0x00EE#16 = .ret ∧
  ∀ (s : State) (j : Fin 16), s.sp.val = j.val → ∃ t, exec .ret s = .next t ∧ t.pc = s.stack[j] ∧
    t.sp.val = s.sp.val + 1 ∧ t.stack = s.stack ∧ SameButStackPc s t

/-- A CALL and then a RET come back to the instruction after the CALL with SP as it was before it (40_control_flow.md
section 2, RET, the source's sentence; the spec's decision D9). -/
def Obligations.RetUndoesCall : Prop :=
  ∀ (nnn : Addr12) (s : State), s.sp.val ≠ 0 →
    ∃ t u, exec (.call nnn) s = .next t ∧ exec .ret t = .next u ∧ PcBy 2 s u ∧ u.sp = s.sp ∧ SameButStackPc s u

/-- SE and SNE with an immediate: a taken skip passes over one word (40_control_flow.md sections 1 and 2, from general
knowledge; the spec's decision D8). -/
def Obligations.SkipsOnAnImmediate : Prop :=
  ∀ (x : RegIdx) (kk : Byte) (s : State),
    decode (0x3#4 ++ x ++ kk) = .seByte x kk ∧ decode (0x4#4 ++ x ++ kk) = .sneByte x kk ∧
    (∃ t, exec (.seByte x kk) s = .next t ∧ PcBy (if s.reg x = kk then 4 else 2) s t ∧ SameButPc s t) ∧
    ∃ t, exec (.sneByte x kk) s = .next t ∧ PcBy (if s.reg x = kk then 2 else 4) s t ∧ SameButPc s t

/-- SE and SNE of two registers, whatever the low nibble of the word (40_control_flow.md sections 1 and 2, from general
knowledge; the spec's decisions D8 and D17). -/
def Obligations.SkipsOnTwoRegisters : Prop :=
  ∀ (x y : RegIdx) (n : Nibble) (s : State),
    decode (0x5#4 ++ x ++ y ++ n) = .seReg x y n ∧ decode (0x9#4 ++ x ++ y ++ n) = .sneReg x y n ∧
    (∃ t, exec (.seReg x y n) s = .next t ∧ PcBy (if s.reg x = s.reg y then 4 else 2) s t ∧ SameButPc s t) ∧
    ∃ t, exec (.sneReg x y n) s = .next t ∧ PcBy (if s.reg x = s.reg y then 2 else 4) s t ∧ SameButPc s t

/-- SKP and SKNP: the key is the low nibble of Vx, and the keyboard is not changed (44_timers_keys.md section 2; the
spec's decisions D8 and D15). -/
def Obligations.SkipsOnAKey : Prop :=
  ∀ (x : RegIdx) (k : Nibble) (s : State), (s.reg x).toNat % 16 = k.toNat →
    decode (0xE#4 ++ x ++ 0x9E#8) = .skp x ∧ decode (0xE#4 ++ x ++ 0xA1#8) = .sknp x ∧
    (∃ t, exec (.skp x) s = .next t ∧ PcBy (if s.keyDown k = true then 4 else 2) s t ∧ SameButPc s t) ∧
    ∃ t, exec (.sknp x) s = .next t ∧ PcBy (if s.keyDown k = true then 2 else 4) s t ∧ SameButPc s t

/-! ## Loads, arithmetic, logic, shifts, random -/

/-- R171: LD Vx, kk. -/
def Obligations.LoadImmediate : Prop :=
  ∀ (x : RegIdx) (kk : Byte) (s : State), decode (0x6#4 ++ x ++ kk) = .ldByte x kk ∧
    ∃ t, exec (.ldByte x kk) s = .next t ∧ (∀ r, t.reg r = if r = x then kk else s.reg r) ∧ PcBy 2 s t ∧
      SameButRegsPc s t

/-- LD Vx, Vy and the three logic operations write Vx alone: VF stays unless x is F (41_alu.md section 2, from general
knowledge; the spec's decision D7). -/
def Obligations.CopyAndLogicWriteVxAlone : Prop :=
  ∀ (x y : RegIdx) (s : State),
    (decode (0x8#4 ++ x ++ y ++ 0x0#4) = .ldReg x y ∧ decode (0x8#4 ++ x ++ y ++ 0x1#4) = .orReg x y ∧
      decode (0x8#4 ++ x ++ y ++ 0x2#4) = .andReg x y ∧ decode (0x8#4 ++ x ++ y ++ 0x3#4) = .xorReg x y) ∧
    (∃ t, exec (.ldReg x y) s = .next t ∧ (∀ r, t.reg r = if r = x then s.reg y else s.reg r) ∧ PcBy 2 s t ∧
      SameButRegsPc s t) ∧
    (∃ t, exec (.orReg x y) s = .next t ∧ (∀ r, (t.reg r).toNat =
      if r = x then (s.reg x).toNat ||| (s.reg y).toNat else (s.reg r).toNat) ∧ PcBy 2 s t ∧ SameButRegsPc s t) ∧
    (∃ t, exec (.andReg x y) s = .next t ∧ (∀ r, (t.reg r).toNat =
      if r = x then (s.reg x).toNat &&& (s.reg y).toNat else (s.reg r).toNat) ∧ PcBy 2 s t ∧ SameButRegsPc s t) ∧
    (∃ t, exec (.xorReg x y) s = .next t ∧ (∀ r, (t.reg r).toNat =
      if r = x then (s.reg x).toNat ^^^ (s.reg y).toNat else (s.reg r).toNat) ∧ PcBy 2 s t ∧ SameButRegsPc s t)

/-- R177: the exact laws of add and sub, in the instructions that add and subtract two registers or a register and an
immediate, with the result in Vx and the flag in VF, for a destination that is not VF. -/
def Obligations.ExactLawsOfAddAndSub : Prop :=
  ∀ (x y : RegIdx) (kk : Byte) (s : State), x ≠ 0xF#4 →
    (∃ t, exec (.addReg x y) s = .next t ∧ (t.reg x).toNat = ((s.reg x).toNat + (s.reg y).toNat) % 256 ∧
      (t.reg 0xF#4).toNat = if 255 < (s.reg x).toNat + (s.reg y).toNat then 1 else 0) ∧
    (∃ t, exec (.addByte x kk) s = .next t ∧ (t.reg x).toNat = ((s.reg x).toNat + kk.toNat) % 256 ∧
      (t.reg 0xF#4).toNat = if 255 < (s.reg x).toNat + kk.toNat then 1 else 0) ∧
    (∃ t, exec (.sub x y) s = .next t ∧ ((t.reg x).toNat : Int) = ((s.reg x).toNat - (s.reg y).toNat : Int) % 256 ∧
      ((t.reg 0xF#4).toNat = if (s.reg y).toNat ≤ (s.reg x).toNat then 1 else 0) ∧
      (s.reg x = s.reg y → t.reg x = 0#8 ∧ t.reg 0xF#4 = 1#8)) ∧
    (∃ t, exec (.subn x y) s = .next t ∧ ((t.reg x).toNat : Int) = ((s.reg y).toNat - (s.reg x).toNat : Int) % 256 ∧
      ((t.reg 0xF#4).toNat = if (s.reg x).toNat ≤ (s.reg y).toNat then 1 else 0) ∧
      (s.reg x = s.reg y → t.reg x = 0#8 ∧ t.reg 0xF#4 = 1#8))

/-- ADD Vx, kk and ADD Vx, Vy: the sum goes to Vx, then the carry to VF, so that with x = F the carry stays; the old values
are the operands (41_alu.md section 2, the two ADDs; the spec's decision D5). -/
def Obligations.AddsWriteTheCarryLast : Prop :=
  ∀ (x y : RegIdx) (kk : Byte) (s : State),
    decode (0x7#4 ++ x ++ kk) = .addByte x kk ∧ decode (0x8#4 ++ x ++ y ++ 0x4#4) = .addReg x y ∧
    (∃ t, exec (.addByte x kk) s = .next t ∧ (∀ r, (t.reg r).toNat =
        if r = 0xF#4 then (if 255 < (s.reg x).toNat + kk.toNat then 1 else 0)
        else if r = x then ((s.reg x).toNat + kk.toNat) % 256 else (s.reg r).toNat) ∧
      PcBy 2 s t ∧ SameButRegsPc s t) ∧
    (∃ t, exec (.addReg x y) s = .next t ∧ (∀ r, (t.reg r).toNat =
        if r = 0xF#4 then (if 255 < (s.reg x).toNat + (s.reg y).toNat then 1 else 0)
        else if r = x then ((s.reg x).toNat + (s.reg y).toNat) % 256 else (s.reg r).toNat) ∧
      PcBy 2 s t ∧ SameButRegsPc s t)

/-- SUB and SUBN: the difference goes to Vx, then NOT borrow to VF, so that with x = F the flag stays (41_alu.md section 2,
SUB and SUBN; the spec's decision D5). -/
def Obligations.SubtractionsWriteNotBorrowLast : Prop :=
  ∀ (x y : RegIdx) (s : State),
    decode (0x8#4 ++ x ++ y ++ 0x5#4) = .sub x y ∧ decode (0x8#4 ++ x ++ y ++ 0x7#4) = .subn x y ∧
    (∃ t, exec (.sub x y) s = .next t ∧ (∀ r, (t.reg r).toNat =
        if r = 0xF#4 then (if (s.reg y).toNat ≤ (s.reg x).toNat then 1 else 0)
        else if r = x then ((s.reg x).toNat + 256 - (s.reg y).toNat) % 256 else (s.reg r).toNat) ∧
      PcBy 2 s t ∧ SameButRegsPc s t) ∧
    (∃ t, exec (.subn x y) s = .next t ∧ (∀ r, (t.reg r).toNat =
        if r = 0xF#4 then (if (s.reg x).toNat ≤ (s.reg y).toNat then 1 else 0)
        else if r = x then ((s.reg y).toNat + 256 - (s.reg x).toNat) % 256 else (s.reg r).toNat) ∧
      PcBy 2 s t ∧ SameButRegsPc s t)

/-- SHR and SHL: the bit shifted out of the old Vx goes to VF, then the shifted value to Vx, so that with x = F the shifted
value stays; Vy plays no part (41_alu.md section 2, SHR and SHL; the spec's decisions D5 and D6). -/
def Obligations.ShiftsWriteVxLast : Prop :=
  ∀ (x y : RegIdx) (s : State),
    decode (0x8#4 ++ x ++ y ++ 0x6#4) = .shr x y ∧ decode (0x8#4 ++ x ++ y ++ 0xE#4) = .shl x y ∧
    (∃ t, exec (.shr x y) s = .next t ∧ (∀ r, (t.reg r).toNat =
        if r = x then (s.reg x).toNat / 2 else if r = 0xF#4 then (s.reg x).toNat % 2 else (s.reg r).toNat) ∧
      PcBy 2 s t ∧ SameButRegsPc s t) ∧
    (∃ t, exec (.shl x y) s = .next t ∧ (∀ r, (t.reg r).toNat =
        if r = x then (s.reg x).toNat * 2 % 256 else if r = 0xF#4 then (s.reg x).toNat / 128
        else (s.reg r).toNat) ∧
      PcBy 2 s t ∧ SameButRegsPc s t)

/-- RND: the byte drawn, whatever it is, masked by kk; the next draw is another one; VF stays unless x is F (41_alu.md
section 2, RND, from general knowledge; the spec's decision D18; the draw is the free value of log 3). -/
def Obligations.RandomByteIsMasked : Prop :=
  ∀ (x : RegIdx) (kk : Byte) (s : State), decode (0xC#4 ++ x ++ kk) = .rnd x kk ∧
    ∃ t, exec (.rnd x kk) s = .next t ∧
      (∀ r, t.reg r = if r = x then Config.randomByte s.draws &&& kk else s.reg r) ∧ t.draws = s.draws + 1 ∧
      PcBy 2 s t ∧ SameButRegsPcDraws s t

/-! ## The index register and memory -/

/-- LD I, ADD I and LD F: the new I, with VF and every other register as before (42_index_memory.md, from general knowledge;
the spec's decisions D12 and D13). -/
def Obligations.IndexInstructionsSetI : Prop :=
  ∀ (nnn : Addr12) (x : RegIdx) (s : State),
    (decode (0xA#4 ++ nnn) = .ldI nnn ∧ decode (0xF#4 ++ x ++ 0x1E#8) = .addI x ∧
      decode (0xF#4 ++ x ++ 0x29#8) = .ldF x) ∧
    (∃ t, exec (.ldI nnn) s = .next t ∧ t.i.toNat = nnn.toNat ∧ PcBy 2 s t ∧ SameButIndexPc s t) ∧
    (∃ t, exec (.addI x) s = .next t ∧ t.i.toNat = (s.i.toNat + (s.reg x).toNat) % 0x10000 ∧ PcBy 2 s t ∧
      SameButIndexPc s t) ∧
    (∃ t, exec (.ldF x) s = .next t ∧ t.i.toNat = 5 * ((s.reg x).toNat % 16) ∧ PcBy 2 s t ∧ SameButIndexPc s t)

/-- LD B stores the three decimal digits at EA(I), EA(I + 1), EA(I + 2), the sums modulo 0x1000, and nothing else
(42_index_memory.md, LD B; 20_memory.md section 2; the spec's decisions D2 and D14). -/
def Obligations.BcdStoresThreeDigits : Prop :=
  (∀ (base : Word) (k : Nat), ea base k = (base.toNat + k) % 0x1000) ∧
  ∀ (x : RegIdx) (s : State), decode (0xF#4 ++ x ++ 0x33#8) = .ldB x ∧
    ∃ t, exec (.ldB x) s = .next t ∧
      (∀ a, (t.byteAt a).toNat =
        if a = ea s.i 0 then (s.reg x).toNat / 100 else if a = ea s.i 1 then (s.reg x).toNat / 10 % 10
        else if a = ea s.i 2 then (s.reg x).toNat % 10 else (s.byteAt a).toNat) ∧
      PcBy 2 s t ∧ SameButMemPc s t

/-- LD [I], Vx stores V0..Vx, inclusive, from EA(I) up, and nothing else (42_index_memory.md, LD [I], Vx; the spec's
decisions D2 and D14). -/
def Obligations.StoreRegistersInclusive : Prop :=
  ∀ (x : RegIdx) (s : State), decode (0xF#4 ++ x ++ 0x55#8) = .ldMemVx x ∧
    ∃ t, exec (.ldMemVx x) s = .next t ∧
      (∀ k : RegIdx, k.toNat ≤ x.toNat → t.byteAt (ea s.i k.toNat) = s.reg k) ∧
      (∀ a, (∀ k : RegIdx, k.toNat ≤ x.toNat → a ≠ ea s.i k.toNat) → t.byteAt a = s.byteAt a) ∧
      PcBy 2 s t ∧ SameButMemPc s t

/-- LD Vx, [I] loads V0..Vx, inclusive, from EA(I) up; the registers above x stay (42_index_memory.md, LD Vx, [I]; the
spec's decisions D2 and D14). -/
def Obligations.LoadRegistersInclusive : Prop :=
  ∀ (x : RegIdx) (s : State), decode (0xF#4 ++ x ++ 0x65#8) = .ldVxMem x ∧
    ∃ t, exec (.ldVxMem x) s = .next t ∧
      (∀ r : RegIdx, t.reg r = if r.toNat ≤ x.toNat then s.byteAt (ea s.i r.toNat) else s.reg r) ∧
      PcBy 2 s t ∧ SameButRegsPc s t

/-- Storing V0..Vx and loading them again, from any other registers with the same I, gives the stored values back
(42_index_memory.md, save and restore; the spec's decisions D2 and D14). -/
def Obligations.LoadUndoesStore : Prop :=
  ∀ (x : RegIdx) (s t u : State), exec (.ldMemVx x) s = .next t → SameMem t u → u.i = t.i →
    ∃ w, exec (.ldVxMem x) u = .next w ∧
      (∀ r : RegIdx, w.reg r = if r.toNat ≤ x.toNat then s.reg r else u.reg r) ∧ SameMem t w

/-- R79: a read gives the byte last written there and changes nothing; a write changes only its byte, and writing it again
changes nothing more. -/
def Obligations.MemoryHasNoSideEffects : Prop :=
  ∀ (s : State) (a : Nat) (b : Byte),
    (∀ k, (s.store a b).byteAt k = if k = a then b else s.byteAt k) ∧
    SameMem (s.store a b) ((s.store a b).store a b) ∧ (s.store a b).pc = s.pc ∧ SameButMemPc s (s.store a b)

/-- A byte stored by LD [I], Vx is the byte that the fetch of the very next instruction reads (20_memory.md section 5,
fetch coherence; the spec's decision D30). -/
def Obligations.StoredCodeIsFetchedAtOnce : Prop :=
  ∀ (x k : RegIdx) (s t : State), k.toNat + 1 ≤ x.toNat → exec (.ldMemVx x) s = .next t →
    t.pc.toNat % 0x1000 = ea s.i k.toNat → t.instrAtPc = decode (s.reg k ++ s.reg (k + 1#4))

/-! ## Display -/

/-- R220: CLS clears every pixel, leaves VF and everything else alone, and advances PC. -/
def Obligations.ClearDisplay : Prop :=
  decode 0x00E0#16 = .cls ∧
  ∀ s : State, ∃ t, exec .cls s = .next t ∧ (∀ px py, t.pixel px py = false) ∧ PcBy 2 s t ∧ SameRegs s t ∧
    SameButRegsPixPc s t

/-- DRW exchanges exactly the pixels of the grid that a set sprite bit covers, drops the rest, and leaves in VF whether one
of them was set (43_display.md, DRW; the spec's decisions D5 and D16). -/
def Obligations.DrawExchangesTheCoveredPixels : Prop :=
  ∀ (x y : RegIdx) (n : Nibble) (s : State), decode (0xD#4 ++ x ++ y ++ n) = .drw x y n ∧
    ∃ t, exec (.drw x y n) s = .next t ∧
      (∀ px py, px < 64 → py < 32 → (SpriteBit s x y n px py → t.pixel px py = !s.pixel px py) ∧
        (¬ SpriteBit s x y n px py → t.pixel px py = s.pixel px py)) ∧
      ((∃ px py, px < 64 ∧ py < 32 ∧ SpriteBit s x y n px py ∧ s.pixel px py = true) → t.reg 0xF#4 = 1#8) ∧
      ((¬ ∃ px py, px < 64 ∧ py < 32 ∧ SpriteBit s x y n px py ∧ s.pixel px py = true) → t.reg 0xF#4 = 0#8) ∧
      (∀ r, r ≠ 0xF#4 → t.reg r = s.reg r) ∧ PcBy 2 s t ∧ SameButRegsPixPc s t

/-- The same DRW twice restores the pixel map, and the second reports a collision exactly when the sprite covers a pixel that
was clear before the first; this holds when neither x nor y is F (43_display.md, the XOR property, which the spec marks as
derived; its sentence that any visible set bit gives VF = 1 is wrong where every covered pixel was set, log 16). -/
def Obligations.DrawTwiceRestoresThePixels : Prop :=
  ∀ (x y : RegIdx) (n : Nibble) (s : State), x ≠ 0xF#4 → y ≠ 0xF#4 →
    ∃ t u, exec (.drw x y n) s = .next t ∧ exec (.drw x y n) t = .next u ∧ u.pix = s.pix ∧
      ((∃ px py, px < 64 ∧ py < 32 ∧ SpriteBit s x y n px py ∧ s.pixel px py = false) → u.reg 0xF#4 = 1#8) ∧
      ((¬ ∃ px py, px < 64 ∧ py < 32 ∧ SpriteBit s x y n px py ∧ s.pixel px py = false) → u.reg 0xF#4 = 0#8)

/-- The pixel map changes only in a step that executes CLS or DRW, or in the reset of a program load; of the instructions only
DRW reads it; the display sink and the state dump read it; every pixel is false at reset (10_state.md R43; the load's reset is
70_reset_and_hazards.md section 1; whose turn a step is is log 2). -/
def Obligations.PixelMapHasTwoWriters : Prop :=
  (∀ s t : State, step s = .next t →
    t.pix = s.pix ∨ Executes s .cls ∨ (∃ x y n, Executes s (.drw x y n)) ∨
      (Loads s ∧ ∀ px py, t.pixel px py = false)) ∧
  (∀ (i : Instr) (s t : State) (p : Pixmap), (∀ x y n, i ≠ .drw x y n) → exec i s = .next t →
    ∃ u, exec i (s.setPix p) = .next u ∧ u.setPix t.pix = t ∧ (u.pix = p ∨ i = .cls)) ∧
  (∀ s : State, s.displaySignal = true → s.takeDisplay.2 = .display s.pix) ∧ (∀ s : State, s.dumped.pix = s.pix) ∧
  ∀ px py, State.reset.pixel px py = false

/-! ## Timers and keys -/

/-- LD Vx, DT, LD DT, Vx and LD ST, Vx with what they leave alone (44_timers_keys.md section 1, from general knowledge; the
spec's decision D29). -/
def Obligations.TimerInstructions : Prop :=
  ∀ (x : RegIdx) (s : State),
    (decode (0xF#4 ++ x ++ 0x07#8) = .ldVxDt x ∧ decode (0xF#4 ++ x ++ 0x15#8) = .ldDtVx x ∧
      decode (0xF#4 ++ x ++ 0x18#8) = .ldStVx x) ∧
    (∃ t, exec (.ldVxDt x) s = .next t ∧ (∀ r, t.reg r = if r = x then s.dt else s.reg r) ∧ PcBy 2 s t ∧
      SameButRegsPc s t) ∧
    (∃ t, exec (.ldDtVx x) s = .next t ∧ t.dt = s.reg x ∧ t.st = s.st ∧ PcBy 2 s t ∧ SameButTimersPc s t) ∧
    (∃ t, exec (.ldStVx x) s = .next t ∧ t.st = s.reg x ∧ t.dt = s.dt ∧ PcBy 2 s t ∧ SameButTimersPc s t)

/-- LD Vx, K loads the lowest pressed key; with none pressed it changes nothing, PC included (44_timers_keys.md section 3;
the spec's decision D19). -/
def Obligations.WaitForKeyTakesTheLowestKey : Prop :=
  ∀ (x : RegIdx) (s : State), decode (0xF#4 ++ x ++ 0x0A#8) = .ldVxK x ∧
    (∀ k : Nibble, s.keyDown k = true → (∀ j : Nibble, j.toNat < k.toNat → s.keyDown j = false) →
      ∃ t, exec (.ldVxK x) s = .next t ∧ (∀ r, (t.reg r).toNat = if r = x then k.toNat else (s.reg r).toNat) ∧
        PcBy 2 s t ∧ SameButRegsPc s t) ∧
    ((∀ k : Nibble, s.keyDown k = false) → exec (.ldVxK x) s = .next s)

/-- The keyboard changes only by `setKeyState`, one key at a time, and by the reset of a program load, which releases
every key; of the instructions only Ex9E, ExA1 and Fx0A read it; every key is false at reset (10_state.md R44; the load's reset
is 70_reset_and_hazards.md section 1; whose turn a step is is log 2). -/
def Obligations.KeyboardHasOneWriter : Prop :=
  (∀ s t : State, step s = .next t → t.key = s.key ∨
    (∃ k p, s.turn.1 = .setKeyState k p ∧ ∀ j, t.keyDown j = if j = k then p else s.keyDown j) ∨
    (Loads s ∧ ∀ j, t.keyDown j = false)) ∧
  (∀ (i : Instr) (s t : State) (k : Nibble) (p : Bool),
    (∀ x, i ≠ .skp x) → (∀ x, i ≠ .sknp x) → (∀ x, i ≠ .ldVxK x) → exec i s = .next t →
      exec i (s.setKey k p) = .next (t.setKey k p)) ∧
  ∀ k, State.reset.keyDown k = false

/-! ## Rules of the whole machine -/

/-- What no instruction but the named ones writes: I by LD I, ADD I, LD F; SP and the stack by CALL and RET; memory by LD B
and LD [I], Vx; the fields of the scheduler and the controller by none, but for the fault of a CALL or a RET (10_state.md,
the writers of each field; the spec's decisions D24, D28, D32 and D34). -/
def Obligations.InstructionsWriteOnlyTheirFields : Prop :=
  ∀ (i : Instr) (s t : State), exec i s = .next t →
    (t.i = s.i ∨ (∃ nnn, i = .ldI nnn) ∨ (∃ x, i = .addI x) ∨ ∃ x, i = .ldF x) ∧
    (SameStack s t ∨ i = .ret ∨ ∃ nnn, i = .call nnn) ∧
    (SameMem s t ∨ (∃ x, i = .ldB x) ∨ ∃ x, i = .ldMemVx x) ∧
    (t.breakpoints = s.breakpoints ∧ t.cycles = s.cycles ∧ t.stopRequest = s.stopRequest ∧
      t.displaySignal = s.displaySignal ∧ t.audioSignal = s.audioSignal ∧ SameModel s t) ∧
    ((t.fault = s.fault ∧ t.running = s.running ∧ t.stopReason = s.stopReason) ∨ i = .ret ∨ ∃ nnn, i = .call nnn)

/-- VF changes only in the seven instructions that write a flag, and in those that name register F as the register they
load (10_state.md section 2, VF; the shape rests on the spec's decisions D5, D7 and D12). -/
def Obligations.OnlyFlagInstructionsTouchVf : Prop :=
  ∀ (i : Instr) (s t : State), exec i s = .next t → t.reg 0xF#4 ≠ s.reg 0xF#4 →
    (∃ x kk, i = .addByte x kk) ∨ (∃ x y, i = .addReg x y ∨ i = .sub x y ∨ i = .shr x y ∨ i = .subn x y ∨ i = .shl x y) ∨
    (∃ x y n, i = .drw x y n) ∨
    (∃ kk, i = .ldByte 0xF#4 kk ∨ i = .rnd 0xF#4 kk) ∨
    (∃ y, i = .ldReg 0xF#4 y ∨ i = .orReg 0xF#4 y ∨ i = .andReg 0xF#4 y ∨ i = .xorReg 0xF#4 y) ∨
    i = .ldVxDt 0xF#4 ∨ i = .ldVxK 0xF#4 ∨ i = .ldVxMem 0xF#4

/-- A program cannot observe the breakpoints, the run flag, the stop request, the stop reason, the signals or the cycle
count: from two states that agree on what a program reads or writes, every instruction has the same outcome and leads to
states that agree again (10_state.md section 9, which the spec marks as derived; the draw counter is log 3). -/
def Obligations.ControlStateIsInvisibleToPrograms : Prop :=
  ∀ (i : Instr) (s s' t : State), SameArchitecture s s' → exec i s = .next t →
    ∃ t', exec i s' = .next t' ∧ SameArchitecture t t' ∧ stepOutcome i s' = stepOutcome i s

/-! ## Run control -/

/-- Within an iteration a pending stop request comes first, then a breakpoint at PC, and neither lets the instruction run;
while Stopped no iteration runs and all state is kept; `r` is the state without the turn (60_exceptions.md sections 1, 4 and
8; the spec's decisions D22 and D23; the turn and the idle step are logs 2 and 10). -/
def Obligations.IterationTakesTheFirstEvent : Prop :=
  ∀ s r : State, s.turn = (.iteration, r) →
    (s.running = true → s.stopRequest = true →
      step s = .next { r with stopRequest := false, running := false, stopReason := some .stopRequested }) ∧
    (s.running = true → s.stopRequest = false → s.pc ∈ s.breakpoints →
      step s = .next { r with running := false, stopReason := some (.breakpoint s.pc) }) ∧
    (s.running = false → step s = .next r)

/-- R351, R352, R353: `listBreakpoints` gives the entries in order with their 1-based positions; `deleteBreakpoint` fails
with no change when the id is 0 or exceeds the count, and otherwise removes that position and keeps the order;
`clearBreakpoints` leaves the empty sequence. -/
def Obligations.BreakpointCommands : Prop :=
  ∀ s : State,
    (s.listBreakpoints.1 = s ∧ ∃ l, s.listBreakpoints.2 = .breakpointList l ∧ l.length = s.breakpoints.length ∧
      ∀ p, l[p]? = (s.breakpoints[p]?).map fun a => (p + 1, a)) ∧
    (∀ id, id = 0 ∨ s.breakpoints.length < id → s.deleteBreakpoint id = (s, .invalidId)) ∧
    (∀ before a after, s.breakpoints = before ++ a :: after →
      s.deleteBreakpoint (before.length + 1) = ({ s with breakpoints := before ++ after }, .done)) ∧
    s.clearBreakpoints = ({ s with breakpoints := [] }, .done)

/-- `run`, `stop` and `addBreakpoint` in every state of the engine (60_exceptions.md section 7; the spec's decisions D21,
D22, D33 and D34). -/
def Obligations.RunStopAndAddCommands : Prop :=
  ∀ s : State,
    (s.fault ≠ none → s.run = (s, .engineFaulted)) ∧
    (s.fault = none → s.running = true → s.run = (s, .ignored)) ∧
    (s.fault = none → s.running = false → s.run = ({ s with running := true }, .done)) ∧
    (s.running = true → s.stop = ({ s with stopRequest := true }, .done)) ∧
    (s.running = false → s.stop = (s, .ignored)) ∧
    (∀ a, ∃ t, s.addBreakpoint a = (t, .done) ∧ t.breakpoints = s.breakpoints ++ [a] ∧
      t = { s with breakpoints := t.breakpoints })

/-- Whose turn it is, and that a step performs that turn. The agenda's first action comes next; with an empty agenda it is the
tick loop's turn, or the next free action, whichever it is. Taking the turn changes the agenda and the schedule alone. A
collaborator's action is performed on the state `r` without the turn, and its answer is left in the report (60_exceptions.md
sections 5 and 6; the spec's decision D31; turn and report are logs 2 and 6). -/
def Obligations.AgendaActionsArePerformed : Prop :=
  ∀ s : State,
    (∀ a rest, s.agenda = a :: rest → s.turn = (a, { s with agenda := rest })) ∧
    (s.agenda = [] → s.schedule = .tickLoop → s.turn = (.iteration, s)) ∧
    (∀ n, s.agenda = [] → s.schedule = .free n →
      s.turn = (Config.freeAction n, { s with schedule := .free (n + 1) })) ∧
    s.turn.2 = { s with agenda := s.turn.2.agenda, schedule := s.turn.2.schedule } ∧
    ∀ r : State,
      (s.turn = (.takeDisplay, r) → step s = .next (r.takeDisplay.1.setReport r.takeDisplay.2)) ∧
      (s.turn = (.takeAudio, r) → step s = .next (r.takeAudio.1.setReport r.takeAudio.2)) ∧
      (s.turn = (.dump, r) → step s = .next (r.setReport (.stateDump r.dumped))) ∧
      (∀ image, s.turn = (.loadProgram image, r) →
        step s = .next ((r.loadProgram image).1.setReport (r.loadProgram image).2)) ∧
      (∀ a, s.turn = (.addBreakpoint a, r) → step s = .next ((r.addBreakpoint a).1.setReport (r.addBreakpoint a).2)) ∧
      (s.turn = (.listBreakpoints, r) → step s = .next (r.listBreakpoints.1.setReport r.listBreakpoints.2)) ∧
      (∀ id, s.turn = (.deleteBreakpoint id, r) →
        step s = .next ((r.deleteBreakpoint id).1.setReport (r.deleteBreakpoint id).2)) ∧
      (s.turn = (.clearBreakpoints, r) → step s = .next (r.clearBreakpoints.1.setReport r.clearBreakpoints.2)) ∧
      (s.turn = (.run, r) → step s = .next (r.run.1.setReport r.run.2)) ∧
      (s.turn = (.stop, r) → step s = .next (r.stop.1.setReport r.stop.2)) ∧
      (∀ k p, s.turn = (.setKeyState k p, r) → step s = .next (r.setKey k p))

/-- A sink that takes its signal clears it, reads the live map or the tone state, and changes nothing else; the state dump
reads every field that it names (60_exceptions.md section 6; the spec's decisions D27, D28, D31 and D40; a take with no
signal is log 7). -/
def Obligations.SinksAndDumpReadTheLiveState : Prop :=
  ∀ s : State,
    (s.displaySignal = true → s.takeDisplay = ({ s with displaySignal := false }, .display s.pix)) ∧
    (s.displaySignal = false → s.takeDisplay = (s, .noSignal)) ∧
    (s.audioSignal = true → ∃ on, s.takeAudio = ({ s with audioSignal := false }, .tone on) ∧
      (on = true ↔ s.st.toNat ≠ 0)) ∧
    (s.audioSignal = false → s.takeAudio = (s, .noSignal)) ∧
    s.dump = (s, .stateDump ⟨s.v, s.i, s.pc, s.sp, s.stack, s.dt, s.st, s.pix, s.breakpoints, s.running, s.cycles,
      s.fault, s.stopReason⟩)

/-- In every fair run, whatever the other agents do, a pending stop request of a Running engine stops it, with the reason
StopRequested and with PC and the cycle count where they were: up to the stop the engine stays Running, the request stays
pending and no step, the stopping one included, executes an instruction (60_exceptions.md section 5, fair interleavings, and
section 7, `stop()`; the spec's decisions D22, D31 and D36; runs and turns are log 2). -/
def Obligations.PendingStopEndsEveryFairRun : Prop :=
  ∀ r : Nat → State, Run r → Fair r → (r 0).running = true → (r 0).stopRequest = true →
    ∃ n, (∀ m, m ≤ n → (r m).running = true ∧ (r m).stopRequest = true ∧ ∀ i, ¬ Executes (r m) i) ∧
      (r (n + 1)).running = false ∧ (r (n + 1)).stopReason = some .stopRequested ∧ (r (n + 1)).stopRequest = false ∧
      (r (n + 1)).pc = (r 0).pc ∧ (r (n + 1)).cycles = (r 0).cycles
end

