-- ==== Sys2Proof/Laws/Decode.lean ====
section
/-! SUPPORT. The fields of a word in each format, and a word put together again from its fields (30_encoding.md R101,
R102). -/

namespace Sys2Proof

@[simp] theorem topNibble_formatA (op : Nibble) (nnn : Addr12) : topNibble (formatA op nnn) = op := by
  apply BitVec.eq_of_getLsbD_eq
  intro i hi
  unfold topNibble formatA
  erw [BitVec.getLsbD_extractLsb', BitVec.getLsbD_append]
  simp [hi]

@[simp] theorem topNibble_formatXK (op : Nibble) (x : RegIdx) (kk : Byte) : topNibble (formatXK op x kk) = op := by
  apply BitVec.eq_of_getLsbD_eq
  intro i hi
  unfold topNibble formatXK
  erw [BitVec.getLsbD_extractLsb', BitVec.getLsbD_append, BitVec.getLsbD_append]
  have h1 : ¬ 12 + i < 8 := by omega
  have h2 : ¬ 12 + i - 8 < 4 := by omega
  have h3 : 12 + i - 8 - 4 = i := by omega
  simp [hi, h1, h2, h3]

@[simp] theorem topNibble_formatXYN (op : Nibble) (x y : RegIdx) (n : Nibble) :
    topNibble (formatXYN op x y n) = op := by
  apply BitVec.eq_of_getLsbD_eq
  intro i hi
  unfold topNibble formatXYN
  erw [BitVec.getLsbD_extractLsb', BitVec.getLsbD_append, BitVec.getLsbD_append, BitVec.getLsbD_append]
  have h1 : ¬ 12 + i < 4 := by omega
  have h2 : ¬ 12 + i - 4 < 4 := by omega
  have h3 : ¬ 12 + i - 4 - 4 < 4 := by omega
  have h4 : 12 + i - 4 - 4 - 4 = i := by omega
  simp [hi, h1, h2, h3, h4]

@[simp] theorem fields_formatA_nnn (op : Nibble) (nnn : Addr12) : (fields (formatA op nnn)).nnn = nnn := by
  apply BitVec.eq_of_getLsbD_eq
  intro i hi
  unfold fields formatA
  erw [BitVec.getLsbD_extractLsb', BitVec.getLsbD_append]
  simp [hi]

@[simp] theorem fields_formatXK_x (op : Nibble) (x : RegIdx) (kk : Byte) : (fields (formatXK op x kk)).x = x := by
  apply BitVec.eq_of_getLsbD_eq
  intro i hi
  unfold fields formatXK
  erw [BitVec.getLsbD_extractLsb', BitVec.getLsbD_append, BitVec.getLsbD_append]
  simp [hi]

@[simp] theorem fields_formatXK_kk (op : Nibble) (x : RegIdx) (kk : Byte) : (fields (formatXK op x kk)).kk = kk := by
  apply BitVec.eq_of_getLsbD_eq
  intro i hi
  unfold fields formatXK
  erw [BitVec.getLsbD_extractLsb', BitVec.getLsbD_append]
  simp [hi]

@[simp] theorem fields_formatXYN_x (op : Nibble) (x y : RegIdx) (n : Nibble) :
    (fields (formatXYN op x y n)).x = x := by
  apply BitVec.eq_of_getLsbD_eq
  intro i hi
  unfold fields formatXYN
  erw [BitVec.getLsbD_extractLsb', BitVec.getLsbD_append, BitVec.getLsbD_append, BitVec.getLsbD_append]
  have h1 : ¬ 8 + i < 4 := by omega
  have h2 : ¬ 8 + i - 4 < 4 := by omega
  have h3 : 8 + i - 4 - 4 = i := by omega
  simp [hi, h1, h2, h3]

@[simp] theorem fields_formatXYN_y (op : Nibble) (x y : RegIdx) (n : Nibble) :
    (fields (formatXYN op x y n)).y = y := by
  apply BitVec.eq_of_getLsbD_eq
  intro i hi
  unfold fields formatXYN
  erw [BitVec.getLsbD_extractLsb', BitVec.getLsbD_append, BitVec.getLsbD_append]
  simp [hi]

@[simp] theorem fields_formatXYN_n (op : Nibble) (x y : RegIdx) (n : Nibble) :
    (fields (formatXYN op x y n)).n = n := by
  apply BitVec.eq_of_getLsbD_eq
  intro i hi
  unfold fields formatXYN
  erw [BitVec.getLsbD_extractLsb', BitVec.getLsbD_append]
  simp [hi]

/-- A word is its top nibble and its address field. -/
theorem formatA_of_fields (w : Word) : formatA (topNibble w) (fields w).nnn = w := by
  apply BitVec.eq_of_getLsbD_eq
  intro i hi
  unfold topNibble fields formatA
  erw [BitVec.getLsbD_append]
  simp only [BitVec.getLsbD_extractLsb']
  split
  · simp [*]
  · have h : i - 12 < 4 := by omega
    have h2 : 12 + (i - 12) = i := by omega
    simp [h, h2]

/-- A word is its top nibble, its x and its immediate. -/
theorem formatXK_of_fields (w : Word) : formatXK (topNibble w) (fields w).x (fields w).kk = w := by
  apply BitVec.eq_of_getLsbD_eq
  intro i hi
  unfold topNibble fields formatXK
  erw [BitVec.getLsbD_append, BitVec.getLsbD_append]
  simp only [BitVec.getLsbD_extractLsb']
  split
  · simp [*]
  · split
    · have h2 : 8 + (i - 8) = i := by omega
      simp [*]
    · have h : i - 8 - 4 < 4 := by omega
      have h2 : 12 + (i - 8 - 4) = i := by omega
      simp [h, h2]

/-- A word is its four nibbles. -/
theorem formatXYN_of_fields (w : Word) :
    formatXYN (topNibble w) (fields w).x (fields w).y (fields w).n = w := by
  apply BitVec.eq_of_getLsbD_eq
  intro i hi
  unfold topNibble fields formatXYN
  erw [BitVec.getLsbD_append, BitVec.getLsbD_append, BitVec.getLsbD_append]
  simp only [BitVec.getLsbD_extractLsb']
  split
  · simp [*]
  · split
    · have h2 : 4 + (i - 4) = i := by omega
      simp [*]
    · split
      · have h2 : 8 + (i - 4 - 4) = i := by omega
        simp [*]
      · have h : i - 4 - 4 - 4 < 4 := by omega
        have h2 : 12 + (i - 4 - 4 - 4) = i := by omega
        simp [h, h2]

/-- A word whose top nibble is not 0 is neither of the two full words. -/
theorem decode_of_topNibble (w : Word) (h : topNibble w ≠ 0x0#4) :
    decode w = decodeTop w (fields w) (topNibble w) := by
  have h1 : w ≠ 0x00E0#16 := fun e => h (e ▸ by decide)
  have h2 : w ≠ 0x00EE#16 := fun e => h (e ▸ by decide)
  unfold decode
  rw [if_neg h1, if_neg h2]

end Sys2Proof
end

