-- ==== Sys2Proof/Laws/State.lean ====
section
/-! SUPPORT. One lemma per field per update of State: what the update makes of the field. -/

namespace Sys2Proof.Machine

/-! The update `setReg`. -/

@[simp] theorem State.setReg_v (s : State) (x : RegIdx) (b : Byte) : (s.setReg x b).v = s.v.set x.toNat b x.isLt := rfl
@[simp] theorem State.setReg_i (s : State) (x : RegIdx) (b : Byte) : (s.setReg x b).i = s.i := rfl
@[simp] theorem State.setReg_pc (s : State) (x : RegIdx) (b : Byte) : (s.setReg x b).pc = s.pc := rfl
@[simp] theorem State.setReg_sp (s : State) (x : RegIdx) (b : Byte) : (s.setReg x b).sp = s.sp := rfl
@[simp] theorem State.setReg_stack (s : State) (x : RegIdx) (b : Byte) : (s.setReg x b).stack = s.stack := rfl
@[simp] theorem State.setReg_dt (s : State) (x : RegIdx) (b : Byte) : (s.setReg x b).dt = s.dt := rfl
@[simp] theorem State.setReg_st (s : State) (x : RegIdx) (b : Byte) : (s.setReg x b).st = s.st := rfl
@[simp] theorem State.setReg_mem (s : State) (x : RegIdx) (b : Byte) : (s.setReg x b).mem = s.mem := rfl
@[simp] theorem State.setReg_pix (s : State) (x : RegIdx) (b : Byte) : (s.setReg x b).pix = s.pix := rfl
@[simp] theorem State.setReg_key (s : State) (x : RegIdx) (b : Byte) : (s.setReg x b).key = s.key := rfl
@[simp] theorem State.setReg_breakpoints (s : State) (x : RegIdx) (b : Byte) : (s.setReg x b).breakpoints = s.breakpoints := rfl
@[simp] theorem State.setReg_running (s : State) (x : RegIdx) (b : Byte) : (s.setReg x b).running = s.running := rfl
@[simp] theorem State.setReg_cycles (s : State) (x : RegIdx) (b : Byte) : (s.setReg x b).cycles = s.cycles := rfl
@[simp] theorem State.setReg_stopRequest (s : State) (x : RegIdx) (b : Byte) : (s.setReg x b).stopRequest = s.stopRequest := rfl
@[simp] theorem State.setReg_fault (s : State) (x : RegIdx) (b : Byte) : (s.setReg x b).fault = s.fault := rfl
@[simp] theorem State.setReg_stopReason (s : State) (x : RegIdx) (b : Byte) : (s.setReg x b).stopReason = s.stopReason := rfl
@[simp] theorem State.setReg_displaySignal (s : State) (x : RegIdx) (b : Byte) : (s.setReg x b).displaySignal = s.displaySignal := rfl
@[simp] theorem State.setReg_audioSignal (s : State) (x : RegIdx) (b : Byte) : (s.setReg x b).audioSignal = s.audioSignal := rfl
@[simp] theorem State.setReg_draws (s : State) (x : RegIdx) (b : Byte) : (s.setReg x b).draws = s.draws := rfl
@[simp] theorem State.setReg_agenda (s : State) (x : RegIdx) (b : Byte) : (s.setReg x b).agenda = s.agenda := rfl
@[simp] theorem State.setReg_schedule (s : State) (x : RegIdx) (b : Byte) : (s.setReg x b).schedule = s.schedule := rfl
@[simp] theorem State.setReg_report (s : State) (x : RegIdx) (b : Byte) : (s.setReg x b).report = s.report := rfl

/-! The update `setIndex`. -/

@[simp] theorem State.setIndex_v (s : State) (w : Word) : (s.setIndex w).v = s.v := rfl
@[simp] theorem State.setIndex_i (s : State) (w : Word) : (s.setIndex w).i = w := rfl
@[simp] theorem State.setIndex_pc (s : State) (w : Word) : (s.setIndex w).pc = s.pc := rfl
@[simp] theorem State.setIndex_sp (s : State) (w : Word) : (s.setIndex w).sp = s.sp := rfl
@[simp] theorem State.setIndex_stack (s : State) (w : Word) : (s.setIndex w).stack = s.stack := rfl
@[simp] theorem State.setIndex_dt (s : State) (w : Word) : (s.setIndex w).dt = s.dt := rfl
@[simp] theorem State.setIndex_st (s : State) (w : Word) : (s.setIndex w).st = s.st := rfl
@[simp] theorem State.setIndex_mem (s : State) (w : Word) : (s.setIndex w).mem = s.mem := rfl
@[simp] theorem State.setIndex_pix (s : State) (w : Word) : (s.setIndex w).pix = s.pix := rfl
@[simp] theorem State.setIndex_key (s : State) (w : Word) : (s.setIndex w).key = s.key := rfl
@[simp] theorem State.setIndex_breakpoints (s : State) (w : Word) : (s.setIndex w).breakpoints = s.breakpoints := rfl
@[simp] theorem State.setIndex_running (s : State) (w : Word) : (s.setIndex w).running = s.running := rfl
@[simp] theorem State.setIndex_cycles (s : State) (w : Word) : (s.setIndex w).cycles = s.cycles := rfl
@[simp] theorem State.setIndex_stopRequest (s : State) (w : Word) : (s.setIndex w).stopRequest = s.stopRequest := rfl
@[simp] theorem State.setIndex_fault (s : State) (w : Word) : (s.setIndex w).fault = s.fault := rfl
@[simp] theorem State.setIndex_stopReason (s : State) (w : Word) : (s.setIndex w).stopReason = s.stopReason := rfl
@[simp] theorem State.setIndex_displaySignal (s : State) (w : Word) : (s.setIndex w).displaySignal = s.displaySignal := rfl
@[simp] theorem State.setIndex_audioSignal (s : State) (w : Word) : (s.setIndex w).audioSignal = s.audioSignal := rfl
@[simp] theorem State.setIndex_draws (s : State) (w : Word) : (s.setIndex w).draws = s.draws := rfl
@[simp] theorem State.setIndex_agenda (s : State) (w : Word) : (s.setIndex w).agenda = s.agenda := rfl
@[simp] theorem State.setIndex_schedule (s : State) (w : Word) : (s.setIndex w).schedule = s.schedule := rfl
@[simp] theorem State.setIndex_report (s : State) (w : Word) : (s.setIndex w).report = s.report := rfl

/-! The update `setPc`. -/

@[simp] theorem State.setPc_v (s : State) (w : Word) : (s.setPc w).v = s.v := rfl
@[simp] theorem State.setPc_i (s : State) (w : Word) : (s.setPc w).i = s.i := rfl
@[simp] theorem State.setPc_pc (s : State) (w : Word) : (s.setPc w).pc = w := rfl
@[simp] theorem State.setPc_sp (s : State) (w : Word) : (s.setPc w).sp = s.sp := rfl
@[simp] theorem State.setPc_stack (s : State) (w : Word) : (s.setPc w).stack = s.stack := rfl
@[simp] theorem State.setPc_dt (s : State) (w : Word) : (s.setPc w).dt = s.dt := rfl
@[simp] theorem State.setPc_st (s : State) (w : Word) : (s.setPc w).st = s.st := rfl
@[simp] theorem State.setPc_mem (s : State) (w : Word) : (s.setPc w).mem = s.mem := rfl
@[simp] theorem State.setPc_pix (s : State) (w : Word) : (s.setPc w).pix = s.pix := rfl
@[simp] theorem State.setPc_key (s : State) (w : Word) : (s.setPc w).key = s.key := rfl
@[simp] theorem State.setPc_breakpoints (s : State) (w : Word) : (s.setPc w).breakpoints = s.breakpoints := rfl
@[simp] theorem State.setPc_running (s : State) (w : Word) : (s.setPc w).running = s.running := rfl
@[simp] theorem State.setPc_cycles (s : State) (w : Word) : (s.setPc w).cycles = s.cycles := rfl
@[simp] theorem State.setPc_stopRequest (s : State) (w : Word) : (s.setPc w).stopRequest = s.stopRequest := rfl
@[simp] theorem State.setPc_fault (s : State) (w : Word) : (s.setPc w).fault = s.fault := rfl
@[simp] theorem State.setPc_stopReason (s : State) (w : Word) : (s.setPc w).stopReason = s.stopReason := rfl
@[simp] theorem State.setPc_displaySignal (s : State) (w : Word) : (s.setPc w).displaySignal = s.displaySignal := rfl
@[simp] theorem State.setPc_audioSignal (s : State) (w : Word) : (s.setPc w).audioSignal = s.audioSignal := rfl
@[simp] theorem State.setPc_draws (s : State) (w : Word) : (s.setPc w).draws = s.draws := rfl
@[simp] theorem State.setPc_agenda (s : State) (w : Word) : (s.setPc w).agenda = s.agenda := rfl
@[simp] theorem State.setPc_schedule (s : State) (w : Word) : (s.setPc w).schedule = s.schedule := rfl
@[simp] theorem State.setPc_report (s : State) (w : Word) : (s.setPc w).report = s.report := rfl

/-! The update `advance`. -/

@[simp] theorem State.advance_v (s : State) : (s.advance).v = s.v := rfl
@[simp] theorem State.advance_i (s : State) : (s.advance).i = s.i := rfl
@[simp] theorem State.advance_pc (s : State) : (s.advance).pc = s.pc + 2#16 := rfl
@[simp] theorem State.advance_sp (s : State) : (s.advance).sp = s.sp := rfl
@[simp] theorem State.advance_stack (s : State) : (s.advance).stack = s.stack := rfl
@[simp] theorem State.advance_dt (s : State) : (s.advance).dt = s.dt := rfl
@[simp] theorem State.advance_st (s : State) : (s.advance).st = s.st := rfl
@[simp] theorem State.advance_mem (s : State) : (s.advance).mem = s.mem := rfl
@[simp] theorem State.advance_pix (s : State) : (s.advance).pix = s.pix := rfl
@[simp] theorem State.advance_key (s : State) : (s.advance).key = s.key := rfl
@[simp] theorem State.advance_breakpoints (s : State) : (s.advance).breakpoints = s.breakpoints := rfl
@[simp] theorem State.advance_running (s : State) : (s.advance).running = s.running := rfl
@[simp] theorem State.advance_cycles (s : State) : (s.advance).cycles = s.cycles := rfl
@[simp] theorem State.advance_stopRequest (s : State) : (s.advance).stopRequest = s.stopRequest := rfl
@[simp] theorem State.advance_fault (s : State) : (s.advance).fault = s.fault := rfl
@[simp] theorem State.advance_stopReason (s : State) : (s.advance).stopReason = s.stopReason := rfl
@[simp] theorem State.advance_displaySignal (s : State) : (s.advance).displaySignal = s.displaySignal := rfl
@[simp] theorem State.advance_audioSignal (s : State) : (s.advance).audioSignal = s.audioSignal := rfl
@[simp] theorem State.advance_draws (s : State) : (s.advance).draws = s.draws := rfl
@[simp] theorem State.advance_agenda (s : State) : (s.advance).agenda = s.agenda := rfl
@[simp] theorem State.advance_schedule (s : State) : (s.advance).schedule = s.schedule := rfl
@[simp] theorem State.advance_report (s : State) : (s.advance).report = s.report := rfl

/-! The update `skipIf`. -/

@[simp] theorem State.skipIf_v (s : State) (c : Bool) : (s.skipIf c).v = s.v := rfl
@[simp] theorem State.skipIf_i (s : State) (c : Bool) : (s.skipIf c).i = s.i := rfl
@[simp] theorem State.skipIf_pc (s : State) (c : Bool) : (s.skipIf c).pc = if c then s.pc + 4#16 else s.pc + 2#16 := rfl
@[simp] theorem State.skipIf_sp (s : State) (c : Bool) : (s.skipIf c).sp = s.sp := rfl
@[simp] theorem State.skipIf_stack (s : State) (c : Bool) : (s.skipIf c).stack = s.stack := rfl
@[simp] theorem State.skipIf_dt (s : State) (c : Bool) : (s.skipIf c).dt = s.dt := rfl
@[simp] theorem State.skipIf_st (s : State) (c : Bool) : (s.skipIf c).st = s.st := rfl
@[simp] theorem State.skipIf_mem (s : State) (c : Bool) : (s.skipIf c).mem = s.mem := rfl
@[simp] theorem State.skipIf_pix (s : State) (c : Bool) : (s.skipIf c).pix = s.pix := rfl
@[simp] theorem State.skipIf_key (s : State) (c : Bool) : (s.skipIf c).key = s.key := rfl
@[simp] theorem State.skipIf_breakpoints (s : State) (c : Bool) : (s.skipIf c).breakpoints = s.breakpoints := rfl
@[simp] theorem State.skipIf_running (s : State) (c : Bool) : (s.skipIf c).running = s.running := rfl
@[simp] theorem State.skipIf_cycles (s : State) (c : Bool) : (s.skipIf c).cycles = s.cycles := rfl
@[simp] theorem State.skipIf_stopRequest (s : State) (c : Bool) : (s.skipIf c).stopRequest = s.stopRequest := rfl
@[simp] theorem State.skipIf_fault (s : State) (c : Bool) : (s.skipIf c).fault = s.fault := rfl
@[simp] theorem State.skipIf_stopReason (s : State) (c : Bool) : (s.skipIf c).stopReason = s.stopReason := rfl
@[simp] theorem State.skipIf_displaySignal (s : State) (c : Bool) : (s.skipIf c).displaySignal = s.displaySignal := rfl
@[simp] theorem State.skipIf_audioSignal (s : State) (c : Bool) : (s.skipIf c).audioSignal = s.audioSignal := rfl
@[simp] theorem State.skipIf_draws (s : State) (c : Bool) : (s.skipIf c).draws = s.draws := rfl
@[simp] theorem State.skipIf_agenda (s : State) (c : Bool) : (s.skipIf c).agenda = s.agenda := rfl
@[simp] theorem State.skipIf_schedule (s : State) (c : Bool) : (s.skipIf c).schedule = s.schedule := rfl
@[simp] theorem State.skipIf_report (s : State) (c : Bool) : (s.skipIf c).report = s.report := rfl

/-! The update `setDelay`. -/

@[simp] theorem State.setDelay_v (s : State) (b : Byte) : (s.setDelay b).v = s.v := rfl
@[simp] theorem State.setDelay_i (s : State) (b : Byte) : (s.setDelay b).i = s.i := rfl
@[simp] theorem State.setDelay_pc (s : State) (b : Byte) : (s.setDelay b).pc = s.pc := rfl
@[simp] theorem State.setDelay_sp (s : State) (b : Byte) : (s.setDelay b).sp = s.sp := rfl
@[simp] theorem State.setDelay_stack (s : State) (b : Byte) : (s.setDelay b).stack = s.stack := rfl
@[simp] theorem State.setDelay_dt (s : State) (b : Byte) : (s.setDelay b).dt = b := rfl
@[simp] theorem State.setDelay_st (s : State) (b : Byte) : (s.setDelay b).st = s.st := rfl
@[simp] theorem State.setDelay_mem (s : State) (b : Byte) : (s.setDelay b).mem = s.mem := rfl
@[simp] theorem State.setDelay_pix (s : State) (b : Byte) : (s.setDelay b).pix = s.pix := rfl
@[simp] theorem State.setDelay_key (s : State) (b : Byte) : (s.setDelay b).key = s.key := rfl
@[simp] theorem State.setDelay_breakpoints (s : State) (b : Byte) : (s.setDelay b).breakpoints = s.breakpoints := rfl
@[simp] theorem State.setDelay_running (s : State) (b : Byte) : (s.setDelay b).running = s.running := rfl
@[simp] theorem State.setDelay_cycles (s : State) (b : Byte) : (s.setDelay b).cycles = s.cycles := rfl
@[simp] theorem State.setDelay_stopRequest (s : State) (b : Byte) : (s.setDelay b).stopRequest = s.stopRequest := rfl
@[simp] theorem State.setDelay_fault (s : State) (b : Byte) : (s.setDelay b).fault = s.fault := rfl
@[simp] theorem State.setDelay_stopReason (s : State) (b : Byte) : (s.setDelay b).stopReason = s.stopReason := rfl
@[simp] theorem State.setDelay_displaySignal (s : State) (b : Byte) : (s.setDelay b).displaySignal = s.displaySignal := rfl
@[simp] theorem State.setDelay_audioSignal (s : State) (b : Byte) : (s.setDelay b).audioSignal = s.audioSignal := rfl
@[simp] theorem State.setDelay_draws (s : State) (b : Byte) : (s.setDelay b).draws = s.draws := rfl
@[simp] theorem State.setDelay_agenda (s : State) (b : Byte) : (s.setDelay b).agenda = s.agenda := rfl
@[simp] theorem State.setDelay_schedule (s : State) (b : Byte) : (s.setDelay b).schedule = s.schedule := rfl
@[simp] theorem State.setDelay_report (s : State) (b : Byte) : (s.setDelay b).report = s.report := rfl

/-! The update `setSound`. -/

@[simp] theorem State.setSound_v (s : State) (b : Byte) : (s.setSound b).v = s.v := rfl
@[simp] theorem State.setSound_i (s : State) (b : Byte) : (s.setSound b).i = s.i := rfl
@[simp] theorem State.setSound_pc (s : State) (b : Byte) : (s.setSound b).pc = s.pc := rfl
@[simp] theorem State.setSound_sp (s : State) (b : Byte) : (s.setSound b).sp = s.sp := rfl
@[simp] theorem State.setSound_stack (s : State) (b : Byte) : (s.setSound b).stack = s.stack := rfl
@[simp] theorem State.setSound_dt (s : State) (b : Byte) : (s.setSound b).dt = s.dt := rfl
@[simp] theorem State.setSound_st (s : State) (b : Byte) : (s.setSound b).st = b := rfl
@[simp] theorem State.setSound_mem (s : State) (b : Byte) : (s.setSound b).mem = s.mem := rfl
@[simp] theorem State.setSound_pix (s : State) (b : Byte) : (s.setSound b).pix = s.pix := rfl
@[simp] theorem State.setSound_key (s : State) (b : Byte) : (s.setSound b).key = s.key := rfl
@[simp] theorem State.setSound_breakpoints (s : State) (b : Byte) : (s.setSound b).breakpoints = s.breakpoints := rfl
@[simp] theorem State.setSound_running (s : State) (b : Byte) : (s.setSound b).running = s.running := rfl
@[simp] theorem State.setSound_cycles (s : State) (b : Byte) : (s.setSound b).cycles = s.cycles := rfl
@[simp] theorem State.setSound_stopRequest (s : State) (b : Byte) : (s.setSound b).stopRequest = s.stopRequest := rfl
@[simp] theorem State.setSound_fault (s : State) (b : Byte) : (s.setSound b).fault = s.fault := rfl
@[simp] theorem State.setSound_stopReason (s : State) (b : Byte) : (s.setSound b).stopReason = s.stopReason := rfl
@[simp] theorem State.setSound_displaySignal (s : State) (b : Byte) : (s.setSound b).displaySignal = s.displaySignal := rfl
@[simp] theorem State.setSound_audioSignal (s : State) (b : Byte) : (s.setSound b).audioSignal = s.audioSignal := rfl
@[simp] theorem State.setSound_draws (s : State) (b : Byte) : (s.setSound b).draws = s.draws := rfl
@[simp] theorem State.setSound_agenda (s : State) (b : Byte) : (s.setSound b).agenda = s.agenda := rfl
@[simp] theorem State.setSound_schedule (s : State) (b : Byte) : (s.setSound b).schedule = s.schedule := rfl
@[simp] theorem State.setSound_report (s : State) (b : Byte) : (s.setSound b).report = s.report := rfl

/-! The update `store`. -/

@[simp] theorem State.store_v (s : State) (a : Nat) (b : Byte) : (s.store a b).v = s.v := rfl
@[simp] theorem State.store_i (s : State) (a : Nat) (b : Byte) : (s.store a b).i = s.i := rfl
@[simp] theorem State.store_pc (s : State) (a : Nat) (b : Byte) : (s.store a b).pc = s.pc := rfl
@[simp] theorem State.store_sp (s : State) (a : Nat) (b : Byte) : (s.store a b).sp = s.sp := rfl
@[simp] theorem State.store_stack (s : State) (a : Nat) (b : Byte) : (s.store a b).stack = s.stack := rfl
@[simp] theorem State.store_dt (s : State) (a : Nat) (b : Byte) : (s.store a b).dt = s.dt := rfl
@[simp] theorem State.store_st (s : State) (a : Nat) (b : Byte) : (s.store a b).st = s.st := rfl
@[simp] theorem State.store_mem (s : State) (a : Nat) (b : Byte) : (s.store a b).mem = Memory.write a b s.mem := rfl
@[simp] theorem State.store_pix (s : State) (a : Nat) (b : Byte) : (s.store a b).pix = s.pix := rfl
@[simp] theorem State.store_key (s : State) (a : Nat) (b : Byte) : (s.store a b).key = s.key := rfl
@[simp] theorem State.store_breakpoints (s : State) (a : Nat) (b : Byte) : (s.store a b).breakpoints = s.breakpoints := rfl
@[simp] theorem State.store_running (s : State) (a : Nat) (b : Byte) : (s.store a b).running = s.running := rfl
@[simp] theorem State.store_cycles (s : State) (a : Nat) (b : Byte) : (s.store a b).cycles = s.cycles := rfl
@[simp] theorem State.store_stopRequest (s : State) (a : Nat) (b : Byte) : (s.store a b).stopRequest = s.stopRequest := rfl
@[simp] theorem State.store_fault (s : State) (a : Nat) (b : Byte) : (s.store a b).fault = s.fault := rfl
@[simp] theorem State.store_stopReason (s : State) (a : Nat) (b : Byte) : (s.store a b).stopReason = s.stopReason := rfl
@[simp] theorem State.store_displaySignal (s : State) (a : Nat) (b : Byte) : (s.store a b).displaySignal = s.displaySignal := rfl
@[simp] theorem State.store_audioSignal (s : State) (a : Nat) (b : Byte) : (s.store a b).audioSignal = s.audioSignal := rfl
@[simp] theorem State.store_draws (s : State) (a : Nat) (b : Byte) : (s.store a b).draws = s.draws := rfl
@[simp] theorem State.store_agenda (s : State) (a : Nat) (b : Byte) : (s.store a b).agenda = s.agenda := rfl
@[simp] theorem State.store_schedule (s : State) (a : Nat) (b : Byte) : (s.store a b).schedule = s.schedule := rfl
@[simp] theorem State.store_report (s : State) (a : Nat) (b : Byte) : (s.store a b).report = s.report := rfl

/-! The update `push`. -/

@[simp] theorem State.push_v (s : State) (w : Word) : (s.push w).v = s.v := rfl
@[simp] theorem State.push_i (s : State) (w : Word) : (s.push w).i = s.i := rfl
@[simp] theorem State.push_pc (s : State) (w : Word) : (s.push w).pc = s.pc := rfl
@[simp] theorem State.push_dt (s : State) (w : Word) : (s.push w).dt = s.dt := rfl
@[simp] theorem State.push_st (s : State) (w : Word) : (s.push w).st = s.st := rfl
@[simp] theorem State.push_mem (s : State) (w : Word) : (s.push w).mem = s.mem := rfl
@[simp] theorem State.push_pix (s : State) (w : Word) : (s.push w).pix = s.pix := rfl
@[simp] theorem State.push_key (s : State) (w : Word) : (s.push w).key = s.key := rfl
@[simp] theorem State.push_breakpoints (s : State) (w : Word) : (s.push w).breakpoints = s.breakpoints := rfl
@[simp] theorem State.push_running (s : State) (w : Word) : (s.push w).running = s.running := rfl
@[simp] theorem State.push_cycles (s : State) (w : Word) : (s.push w).cycles = s.cycles := rfl
@[simp] theorem State.push_stopRequest (s : State) (w : Word) : (s.push w).stopRequest = s.stopRequest := rfl
@[simp] theorem State.push_fault (s : State) (w : Word) : (s.push w).fault = s.fault := rfl
@[simp] theorem State.push_stopReason (s : State) (w : Word) : (s.push w).stopReason = s.stopReason := rfl
@[simp] theorem State.push_displaySignal (s : State) (w : Word) : (s.push w).displaySignal = s.displaySignal := rfl
@[simp] theorem State.push_audioSignal (s : State) (w : Word) : (s.push w).audioSignal = s.audioSignal := rfl
@[simp] theorem State.push_draws (s : State) (w : Word) : (s.push w).draws = s.draws := rfl
@[simp] theorem State.push_agenda (s : State) (w : Word) : (s.push w).agenda = s.agenda := rfl
@[simp] theorem State.push_schedule (s : State) (w : Word) : (s.push w).schedule = s.schedule := rfl
@[simp] theorem State.push_report (s : State) (w : Word) : (s.push w).report = s.report := rfl

/-! The update `pop`. -/

@[simp] theorem State.pop_v (s : State) (h : s.sp.val ≠ 16) : (s.pop h).v = s.v := rfl
@[simp] theorem State.pop_i (s : State) (h : s.sp.val ≠ 16) : (s.pop h).i = s.i := rfl
@[simp] theorem State.pop_pc (s : State) (h : s.sp.val ≠ 16) : (s.pop h).pc = s.pc := rfl
@[simp] theorem State.pop_stack (s : State) (h : s.sp.val ≠ 16) : (s.pop h).stack = s.stack := rfl
@[simp] theorem State.pop_dt (s : State) (h : s.sp.val ≠ 16) : (s.pop h).dt = s.dt := rfl
@[simp] theorem State.pop_st (s : State) (h : s.sp.val ≠ 16) : (s.pop h).st = s.st := rfl
@[simp] theorem State.pop_mem (s : State) (h : s.sp.val ≠ 16) : (s.pop h).mem = s.mem := rfl
@[simp] theorem State.pop_pix (s : State) (h : s.sp.val ≠ 16) : (s.pop h).pix = s.pix := rfl
@[simp] theorem State.pop_key (s : State) (h : s.sp.val ≠ 16) : (s.pop h).key = s.key := rfl
@[simp] theorem State.pop_breakpoints (s : State) (h : s.sp.val ≠ 16) : (s.pop h).breakpoints = s.breakpoints := rfl
@[simp] theorem State.pop_running (s : State) (h : s.sp.val ≠ 16) : (s.pop h).running = s.running := rfl
@[simp] theorem State.pop_cycles (s : State) (h : s.sp.val ≠ 16) : (s.pop h).cycles = s.cycles := rfl
@[simp] theorem State.pop_stopRequest (s : State) (h : s.sp.val ≠ 16) : (s.pop h).stopRequest = s.stopRequest := rfl
@[simp] theorem State.pop_fault (s : State) (h : s.sp.val ≠ 16) : (s.pop h).fault = s.fault := rfl
@[simp] theorem State.pop_stopReason (s : State) (h : s.sp.val ≠ 16) : (s.pop h).stopReason = s.stopReason := rfl
@[simp] theorem State.pop_displaySignal (s : State) (h : s.sp.val ≠ 16) : (s.pop h).displaySignal = s.displaySignal := rfl
@[simp] theorem State.pop_audioSignal (s : State) (h : s.sp.val ≠ 16) : (s.pop h).audioSignal = s.audioSignal := rfl
@[simp] theorem State.pop_draws (s : State) (h : s.sp.val ≠ 16) : (s.pop h).draws = s.draws := rfl
@[simp] theorem State.pop_agenda (s : State) (h : s.sp.val ≠ 16) : (s.pop h).agenda = s.agenda := rfl
@[simp] theorem State.pop_schedule (s : State) (h : s.sp.val ≠ 16) : (s.pop h).schedule = s.schedule := rfl
@[simp] theorem State.pop_report (s : State) (h : s.sp.val ≠ 16) : (s.pop h).report = s.report := rfl

/-! The update `takeFault`. -/

@[simp] theorem State.takeFault_v (s : State) (c : FaultCause) : (s.takeFault c).v = s.v := rfl
@[simp] theorem State.takeFault_i (s : State) (c : FaultCause) : (s.takeFault c).i = s.i := rfl
@[simp] theorem State.takeFault_pc (s : State) (c : FaultCause) : (s.takeFault c).pc = s.pc := rfl
@[simp] theorem State.takeFault_sp (s : State) (c : FaultCause) : (s.takeFault c).sp = s.sp := rfl
@[simp] theorem State.takeFault_stack (s : State) (c : FaultCause) : (s.takeFault c).stack = s.stack := rfl
@[simp] theorem State.takeFault_dt (s : State) (c : FaultCause) : (s.takeFault c).dt = s.dt := rfl
@[simp] theorem State.takeFault_st (s : State) (c : FaultCause) : (s.takeFault c).st = s.st := rfl
@[simp] theorem State.takeFault_mem (s : State) (c : FaultCause) : (s.takeFault c).mem = s.mem := rfl
@[simp] theorem State.takeFault_pix (s : State) (c : FaultCause) : (s.takeFault c).pix = s.pix := rfl
@[simp] theorem State.takeFault_key (s : State) (c : FaultCause) : (s.takeFault c).key = s.key := rfl
@[simp] theorem State.takeFault_breakpoints (s : State) (c : FaultCause) : (s.takeFault c).breakpoints = s.breakpoints := rfl
@[simp] theorem State.takeFault_running (s : State) (c : FaultCause) : (s.takeFault c).running = false := rfl
@[simp] theorem State.takeFault_cycles (s : State) (c : FaultCause) : (s.takeFault c).cycles = s.cycles := rfl
@[simp] theorem State.takeFault_stopRequest (s : State) (c : FaultCause) : (s.takeFault c).stopRequest = s.stopRequest := rfl
@[simp] theorem State.takeFault_fault (s : State) (c : FaultCause) : (s.takeFault c).fault = some ⟨c, s.pc⟩ := rfl
@[simp] theorem State.takeFault_stopReason (s : State) (c : FaultCause) : (s.takeFault c).stopReason = some .faulted := rfl
@[simp] theorem State.takeFault_displaySignal (s : State) (c : FaultCause) : (s.takeFault c).displaySignal = s.displaySignal := rfl
@[simp] theorem State.takeFault_audioSignal (s : State) (c : FaultCause) : (s.takeFault c).audioSignal = s.audioSignal := rfl
@[simp] theorem State.takeFault_draws (s : State) (c : FaultCause) : (s.takeFault c).draws = s.draws := rfl
@[simp] theorem State.takeFault_agenda (s : State) (c : FaultCause) : (s.takeFault c).agenda = s.agenda := rfl
@[simp] theorem State.takeFault_schedule (s : State) (c : FaultCause) : (s.takeFault c).schedule = s.schedule := rfl
@[simp] theorem State.takeFault_report (s : State) (c : FaultCause) : (s.takeFault c).report = s.report := rfl

/-! The update `setKey`. -/

@[simp] theorem State.setKey_v (s : State) (k : Nibble) (p : Bool) : (s.setKey k p).v = s.v := rfl
@[simp] theorem State.setKey_i (s : State) (k : Nibble) (p : Bool) : (s.setKey k p).i = s.i := rfl
@[simp] theorem State.setKey_pc (s : State) (k : Nibble) (p : Bool) : (s.setKey k p).pc = s.pc := rfl
@[simp] theorem State.setKey_sp (s : State) (k : Nibble) (p : Bool) : (s.setKey k p).sp = s.sp := rfl
@[simp] theorem State.setKey_stack (s : State) (k : Nibble) (p : Bool) : (s.setKey k p).stack = s.stack := rfl
@[simp] theorem State.setKey_dt (s : State) (k : Nibble) (p : Bool) : (s.setKey k p).dt = s.dt := rfl
@[simp] theorem State.setKey_st (s : State) (k : Nibble) (p : Bool) : (s.setKey k p).st = s.st := rfl
@[simp] theorem State.setKey_mem (s : State) (k : Nibble) (p : Bool) : (s.setKey k p).mem = s.mem := rfl
@[simp] theorem State.setKey_pix (s : State) (k : Nibble) (p : Bool) : (s.setKey k p).pix = s.pix := rfl
@[simp] theorem State.setKey_key (s : State) (k : Nibble) (p : Bool) : (s.setKey k p).key = s.key.set k.toNat p k.isLt := rfl
@[simp] theorem State.setKey_breakpoints (s : State) (k : Nibble) (p : Bool) : (s.setKey k p).breakpoints = s.breakpoints := rfl
@[simp] theorem State.setKey_running (s : State) (k : Nibble) (p : Bool) : (s.setKey k p).running = s.running := rfl
@[simp] theorem State.setKey_cycles (s : State) (k : Nibble) (p : Bool) : (s.setKey k p).cycles = s.cycles := rfl
@[simp] theorem State.setKey_stopRequest (s : State) (k : Nibble) (p : Bool) : (s.setKey k p).stopRequest = s.stopRequest := rfl
@[simp] theorem State.setKey_fault (s : State) (k : Nibble) (p : Bool) : (s.setKey k p).fault = s.fault := rfl
@[simp] theorem State.setKey_stopReason (s : State) (k : Nibble) (p : Bool) : (s.setKey k p).stopReason = s.stopReason := rfl
@[simp] theorem State.setKey_displaySignal (s : State) (k : Nibble) (p : Bool) : (s.setKey k p).displaySignal = s.displaySignal := rfl
@[simp] theorem State.setKey_audioSignal (s : State) (k : Nibble) (p : Bool) : (s.setKey k p).audioSignal = s.audioSignal := rfl
@[simp] theorem State.setKey_draws (s : State) (k : Nibble) (p : Bool) : (s.setKey k p).draws = s.draws := rfl
@[simp] theorem State.setKey_agenda (s : State) (k : Nibble) (p : Bool) : (s.setKey k p).agenda = s.agenda := rfl
@[simp] theorem State.setKey_schedule (s : State) (k : Nibble) (p : Bool) : (s.setKey k p).schedule = s.schedule := rfl
@[simp] theorem State.setKey_report (s : State) (k : Nibble) (p : Bool) : (s.setKey k p).report = s.report := rfl

/-! The update `setPix`. -/

@[simp] theorem State.setPix_v (s : State) (p : Pixmap) : (s.setPix p).v = s.v := rfl
@[simp] theorem State.setPix_i (s : State) (p : Pixmap) : (s.setPix p).i = s.i := rfl
@[simp] theorem State.setPix_pc (s : State) (p : Pixmap) : (s.setPix p).pc = s.pc := rfl
@[simp] theorem State.setPix_sp (s : State) (p : Pixmap) : (s.setPix p).sp = s.sp := rfl
@[simp] theorem State.setPix_stack (s : State) (p : Pixmap) : (s.setPix p).stack = s.stack := rfl
@[simp] theorem State.setPix_dt (s : State) (p : Pixmap) : (s.setPix p).dt = s.dt := rfl
@[simp] theorem State.setPix_st (s : State) (p : Pixmap) : (s.setPix p).st = s.st := rfl
@[simp] theorem State.setPix_mem (s : State) (p : Pixmap) : (s.setPix p).mem = s.mem := rfl
@[simp] theorem State.setPix_pix (s : State) (p : Pixmap) : (s.setPix p).pix = p := rfl
@[simp] theorem State.setPix_key (s : State) (p : Pixmap) : (s.setPix p).key = s.key := rfl
@[simp] theorem State.setPix_breakpoints (s : State) (p : Pixmap) : (s.setPix p).breakpoints = s.breakpoints := rfl
@[simp] theorem State.setPix_running (s : State) (p : Pixmap) : (s.setPix p).running = s.running := rfl
@[simp] theorem State.setPix_cycles (s : State) (p : Pixmap) : (s.setPix p).cycles = s.cycles := rfl
@[simp] theorem State.setPix_stopRequest (s : State) (p : Pixmap) : (s.setPix p).stopRequest = s.stopRequest := rfl
@[simp] theorem State.setPix_fault (s : State) (p : Pixmap) : (s.setPix p).fault = s.fault := rfl
@[simp] theorem State.setPix_stopReason (s : State) (p : Pixmap) : (s.setPix p).stopReason = s.stopReason := rfl
@[simp] theorem State.setPix_displaySignal (s : State) (p : Pixmap) : (s.setPix p).displaySignal = s.displaySignal := rfl
@[simp] theorem State.setPix_audioSignal (s : State) (p : Pixmap) : (s.setPix p).audioSignal = s.audioSignal := rfl
@[simp] theorem State.setPix_draws (s : State) (p : Pixmap) : (s.setPix p).draws = s.draws := rfl
@[simp] theorem State.setPix_agenda (s : State) (p : Pixmap) : (s.setPix p).agenda = s.agenda := rfl
@[simp] theorem State.setPix_schedule (s : State) (p : Pixmap) : (s.setPix p).schedule = s.schedule := rfl
@[simp] theorem State.setPix_report (s : State) (p : Pixmap) : (s.setPix p).report = s.report := rfl

/-! The update `drawn`. -/

@[simp] theorem State.drawn_v (s : State) : (s.drawn).v = s.v := rfl
@[simp] theorem State.drawn_i (s : State) : (s.drawn).i = s.i := rfl
@[simp] theorem State.drawn_pc (s : State) : (s.drawn).pc = s.pc := rfl
@[simp] theorem State.drawn_sp (s : State) : (s.drawn).sp = s.sp := rfl
@[simp] theorem State.drawn_stack (s : State) : (s.drawn).stack = s.stack := rfl
@[simp] theorem State.drawn_dt (s : State) : (s.drawn).dt = s.dt := rfl
@[simp] theorem State.drawn_st (s : State) : (s.drawn).st = s.st := rfl
@[simp] theorem State.drawn_mem (s : State) : (s.drawn).mem = s.mem := rfl
@[simp] theorem State.drawn_pix (s : State) : (s.drawn).pix = s.pix := rfl
@[simp] theorem State.drawn_key (s : State) : (s.drawn).key = s.key := rfl
@[simp] theorem State.drawn_breakpoints (s : State) : (s.drawn).breakpoints = s.breakpoints := rfl
@[simp] theorem State.drawn_running (s : State) : (s.drawn).running = s.running := rfl
@[simp] theorem State.drawn_cycles (s : State) : (s.drawn).cycles = s.cycles := rfl
@[simp] theorem State.drawn_stopRequest (s : State) : (s.drawn).stopRequest = s.stopRequest := rfl
@[simp] theorem State.drawn_fault (s : State) : (s.drawn).fault = s.fault := rfl
@[simp] theorem State.drawn_stopReason (s : State) : (s.drawn).stopReason = s.stopReason := rfl
@[simp] theorem State.drawn_displaySignal (s : State) : (s.drawn).displaySignal = s.displaySignal := rfl
@[simp] theorem State.drawn_audioSignal (s : State) : (s.drawn).audioSignal = s.audioSignal := rfl
@[simp] theorem State.drawn_draws (s : State) : (s.drawn).draws = s.draws + 1 := rfl
@[simp] theorem State.drawn_agenda (s : State) : (s.drawn).agenda = s.agenda := rfl
@[simp] theorem State.drawn_schedule (s : State) : (s.drawn).schedule = s.schedule := rfl
@[simp] theorem State.drawn_report (s : State) : (s.drawn).report = s.report := rfl

/-! The update `tick`. -/

@[simp] theorem State.tick_v (s : State) : (s.tick).v = s.v := rfl
@[simp] theorem State.tick_i (s : State) : (s.tick).i = s.i := rfl
@[simp] theorem State.tick_pc (s : State) : (s.tick).pc = s.pc := rfl
@[simp] theorem State.tick_sp (s : State) : (s.tick).sp = s.sp := rfl
@[simp] theorem State.tick_stack (s : State) : (s.tick).stack = s.stack := rfl
@[simp] theorem State.tick_dt (s : State) : (s.tick).dt = countDown s.dt := rfl
@[simp] theorem State.tick_st (s : State) : (s.tick).st = countDown s.st := rfl
@[simp] theorem State.tick_mem (s : State) : (s.tick).mem = s.mem := rfl
@[simp] theorem State.tick_pix (s : State) : (s.tick).pix = s.pix := rfl
@[simp] theorem State.tick_key (s : State) : (s.tick).key = s.key := rfl
@[simp] theorem State.tick_breakpoints (s : State) : (s.tick).breakpoints = s.breakpoints := rfl
@[simp] theorem State.tick_running (s : State) : (s.tick).running = s.running := rfl
@[simp] theorem State.tick_cycles (s : State) : (s.tick).cycles = s.cycles := rfl
@[simp] theorem State.tick_stopRequest (s : State) : (s.tick).stopRequest = s.stopRequest := rfl
@[simp] theorem State.tick_fault (s : State) : (s.tick).fault = s.fault := rfl
@[simp] theorem State.tick_stopReason (s : State) : (s.tick).stopReason = s.stopReason := rfl
@[simp] theorem State.tick_displaySignal (s : State) : (s.tick).displaySignal = true := rfl
@[simp] theorem State.tick_audioSignal (s : State) : (s.tick).audioSignal = true := rfl
@[simp] theorem State.tick_draws (s : State) : (s.tick).draws = s.draws := rfl
@[simp] theorem State.tick_agenda (s : State) : (s.tick).agenda = s.agenda := rfl
@[simp] theorem State.tick_schedule (s : State) : (s.tick).schedule = s.schedule := rfl
@[simp] theorem State.tick_report (s : State) : (s.tick).report = s.report := rfl

/-! The update `setCycles`. -/

@[simp] theorem State.setCycles_v (s : State) (c : Fin 9) : (s.setCycles c).v = s.v := rfl
@[simp] theorem State.setCycles_i (s : State) (c : Fin 9) : (s.setCycles c).i = s.i := rfl
@[simp] theorem State.setCycles_pc (s : State) (c : Fin 9) : (s.setCycles c).pc = s.pc := rfl
@[simp] theorem State.setCycles_sp (s : State) (c : Fin 9) : (s.setCycles c).sp = s.sp := rfl
@[simp] theorem State.setCycles_stack (s : State) (c : Fin 9) : (s.setCycles c).stack = s.stack := rfl
@[simp] theorem State.setCycles_dt (s : State) (c : Fin 9) : (s.setCycles c).dt = s.dt := rfl
@[simp] theorem State.setCycles_st (s : State) (c : Fin 9) : (s.setCycles c).st = s.st := rfl
@[simp] theorem State.setCycles_mem (s : State) (c : Fin 9) : (s.setCycles c).mem = s.mem := rfl
@[simp] theorem State.setCycles_pix (s : State) (c : Fin 9) : (s.setCycles c).pix = s.pix := rfl
@[simp] theorem State.setCycles_key (s : State) (c : Fin 9) : (s.setCycles c).key = s.key := rfl
@[simp] theorem State.setCycles_breakpoints (s : State) (c : Fin 9) : (s.setCycles c).breakpoints = s.breakpoints := rfl
@[simp] theorem State.setCycles_running (s : State) (c : Fin 9) : (s.setCycles c).running = s.running := rfl
@[simp] theorem State.setCycles_cycles (s : State) (c : Fin 9) : (s.setCycles c).cycles = c := rfl
@[simp] theorem State.setCycles_stopRequest (s : State) (c : Fin 9) : (s.setCycles c).stopRequest = s.stopRequest := rfl
@[simp] theorem State.setCycles_fault (s : State) (c : Fin 9) : (s.setCycles c).fault = s.fault := rfl
@[simp] theorem State.setCycles_stopReason (s : State) (c : Fin 9) : (s.setCycles c).stopReason = s.stopReason := rfl
@[simp] theorem State.setCycles_displaySignal (s : State) (c : Fin 9) : (s.setCycles c).displaySignal = s.displaySignal := rfl
@[simp] theorem State.setCycles_audioSignal (s : State) (c : Fin 9) : (s.setCycles c).audioSignal = s.audioSignal := rfl
@[simp] theorem State.setCycles_draws (s : State) (c : Fin 9) : (s.setCycles c).draws = s.draws := rfl
@[simp] theorem State.setCycles_agenda (s : State) (c : Fin 9) : (s.setCycles c).agenda = s.agenda := rfl
@[simp] theorem State.setCycles_schedule (s : State) (c : Fin 9) : (s.setCycles c).schedule = s.schedule := rfl
@[simp] theorem State.setCycles_report (s : State) (c : Fin 9) : (s.setCycles c).report = s.report := rfl

/-! The update `stopFor`. -/

@[simp] theorem State.stopFor_v (s : State) (r : StopReason) : (s.stopFor r).v = s.v := rfl
@[simp] theorem State.stopFor_i (s : State) (r : StopReason) : (s.stopFor r).i = s.i := rfl
@[simp] theorem State.stopFor_pc (s : State) (r : StopReason) : (s.stopFor r).pc = s.pc := rfl
@[simp] theorem State.stopFor_sp (s : State) (r : StopReason) : (s.stopFor r).sp = s.sp := rfl
@[simp] theorem State.stopFor_stack (s : State) (r : StopReason) : (s.stopFor r).stack = s.stack := rfl
@[simp] theorem State.stopFor_dt (s : State) (r : StopReason) : (s.stopFor r).dt = s.dt := rfl
@[simp] theorem State.stopFor_st (s : State) (r : StopReason) : (s.stopFor r).st = s.st := rfl
@[simp] theorem State.stopFor_mem (s : State) (r : StopReason) : (s.stopFor r).mem = s.mem := rfl
@[simp] theorem State.stopFor_pix (s : State) (r : StopReason) : (s.stopFor r).pix = s.pix := rfl
@[simp] theorem State.stopFor_key (s : State) (r : StopReason) : (s.stopFor r).key = s.key := rfl
@[simp] theorem State.stopFor_breakpoints (s : State) (r : StopReason) : (s.stopFor r).breakpoints = s.breakpoints := rfl
@[simp] theorem State.stopFor_running (s : State) (r : StopReason) : (s.stopFor r).running = false := rfl
@[simp] theorem State.stopFor_cycles (s : State) (r : StopReason) : (s.stopFor r).cycles = s.cycles := rfl
@[simp] theorem State.stopFor_stopRequest (s : State) (r : StopReason) : (s.stopFor r).stopRequest = s.stopRequest := rfl
@[simp] theorem State.stopFor_fault (s : State) (r : StopReason) : (s.stopFor r).fault = s.fault := rfl
@[simp] theorem State.stopFor_stopReason (s : State) (r : StopReason) : (s.stopFor r).stopReason = some r := rfl
@[simp] theorem State.stopFor_displaySignal (s : State) (r : StopReason) : (s.stopFor r).displaySignal = s.displaySignal := rfl
@[simp] theorem State.stopFor_audioSignal (s : State) (r : StopReason) : (s.stopFor r).audioSignal = s.audioSignal := rfl
@[simp] theorem State.stopFor_draws (s : State) (r : StopReason) : (s.stopFor r).draws = s.draws := rfl
@[simp] theorem State.stopFor_agenda (s : State) (r : StopReason) : (s.stopFor r).agenda = s.agenda := rfl
@[simp] theorem State.stopFor_schedule (s : State) (r : StopReason) : (s.stopFor r).schedule = s.schedule := rfl
@[simp] theorem State.stopFor_report (s : State) (r : StopReason) : (s.stopFor r).report = s.report := rfl

/-! The update `start`. -/

@[simp] theorem State.start_v (s : State) : (s.start).v = s.v := rfl
@[simp] theorem State.start_i (s : State) : (s.start).i = s.i := rfl
@[simp] theorem State.start_pc (s : State) : (s.start).pc = s.pc := rfl
@[simp] theorem State.start_sp (s : State) : (s.start).sp = s.sp := rfl
@[simp] theorem State.start_stack (s : State) : (s.start).stack = s.stack := rfl
@[simp] theorem State.start_dt (s : State) : (s.start).dt = s.dt := rfl
@[simp] theorem State.start_st (s : State) : (s.start).st = s.st := rfl
@[simp] theorem State.start_mem (s : State) : (s.start).mem = s.mem := rfl
@[simp] theorem State.start_pix (s : State) : (s.start).pix = s.pix := rfl
@[simp] theorem State.start_key (s : State) : (s.start).key = s.key := rfl
@[simp] theorem State.start_breakpoints (s : State) : (s.start).breakpoints = s.breakpoints := rfl
@[simp] theorem State.start_running (s : State) : (s.start).running = true := rfl
@[simp] theorem State.start_cycles (s : State) : (s.start).cycles = s.cycles := rfl
@[simp] theorem State.start_stopRequest (s : State) : (s.start).stopRequest = s.stopRequest := rfl
@[simp] theorem State.start_fault (s : State) : (s.start).fault = s.fault := rfl
@[simp] theorem State.start_stopReason (s : State) : (s.start).stopReason = s.stopReason := rfl
@[simp] theorem State.start_displaySignal (s : State) : (s.start).displaySignal = s.displaySignal := rfl
@[simp] theorem State.start_audioSignal (s : State) : (s.start).audioSignal = s.audioSignal := rfl
@[simp] theorem State.start_draws (s : State) : (s.start).draws = s.draws := rfl
@[simp] theorem State.start_agenda (s : State) : (s.start).agenda = s.agenda := rfl
@[simp] theorem State.start_schedule (s : State) : (s.start).schedule = s.schedule := rfl
@[simp] theorem State.start_report (s : State) : (s.start).report = s.report := rfl

/-! The update `setStopRequest`. -/

@[simp] theorem State.setStopRequest_v (s : State) (b : Bool) : (s.setStopRequest b).v = s.v := rfl
@[simp] theorem State.setStopRequest_i (s : State) (b : Bool) : (s.setStopRequest b).i = s.i := rfl
@[simp] theorem State.setStopRequest_pc (s : State) (b : Bool) : (s.setStopRequest b).pc = s.pc := rfl
@[simp] theorem State.setStopRequest_sp (s : State) (b : Bool) : (s.setStopRequest b).sp = s.sp := rfl
@[simp] theorem State.setStopRequest_stack (s : State) (b : Bool) : (s.setStopRequest b).stack = s.stack := rfl
@[simp] theorem State.setStopRequest_dt (s : State) (b : Bool) : (s.setStopRequest b).dt = s.dt := rfl
@[simp] theorem State.setStopRequest_st (s : State) (b : Bool) : (s.setStopRequest b).st = s.st := rfl
@[simp] theorem State.setStopRequest_mem (s : State) (b : Bool) : (s.setStopRequest b).mem = s.mem := rfl
@[simp] theorem State.setStopRequest_pix (s : State) (b : Bool) : (s.setStopRequest b).pix = s.pix := rfl
@[simp] theorem State.setStopRequest_key (s : State) (b : Bool) : (s.setStopRequest b).key = s.key := rfl
@[simp] theorem State.setStopRequest_breakpoints (s : State) (b : Bool) : (s.setStopRequest b).breakpoints = s.breakpoints := rfl
@[simp] theorem State.setStopRequest_running (s : State) (b : Bool) : (s.setStopRequest b).running = s.running := rfl
@[simp] theorem State.setStopRequest_cycles (s : State) (b : Bool) : (s.setStopRequest b).cycles = s.cycles := rfl
@[simp] theorem State.setStopRequest_stopRequest (s : State) (b : Bool) : (s.setStopRequest b).stopRequest = b := rfl
@[simp] theorem State.setStopRequest_fault (s : State) (b : Bool) : (s.setStopRequest b).fault = s.fault := rfl
@[simp] theorem State.setStopRequest_stopReason (s : State) (b : Bool) : (s.setStopRequest b).stopReason = s.stopReason := rfl
@[simp] theorem State.setStopRequest_displaySignal (s : State) (b : Bool) : (s.setStopRequest b).displaySignal = s.displaySignal := rfl
@[simp] theorem State.setStopRequest_audioSignal (s : State) (b : Bool) : (s.setStopRequest b).audioSignal = s.audioSignal := rfl
@[simp] theorem State.setStopRequest_draws (s : State) (b : Bool) : (s.setStopRequest b).draws = s.draws := rfl
@[simp] theorem State.setStopRequest_agenda (s : State) (b : Bool) : (s.setStopRequest b).agenda = s.agenda := rfl
@[simp] theorem State.setStopRequest_schedule (s : State) (b : Bool) : (s.setStopRequest b).schedule = s.schedule := rfl
@[simp] theorem State.setStopRequest_report (s : State) (b : Bool) : (s.setStopRequest b).report = s.report := rfl

/-! The update `setBreakpoints`. -/

@[simp] theorem State.setBreakpoints_v (s : State) (l : List Word) : (s.setBreakpoints l).v = s.v := rfl
@[simp] theorem State.setBreakpoints_i (s : State) (l : List Word) : (s.setBreakpoints l).i = s.i := rfl
@[simp] theorem State.setBreakpoints_pc (s : State) (l : List Word) : (s.setBreakpoints l).pc = s.pc := rfl
@[simp] theorem State.setBreakpoints_sp (s : State) (l : List Word) : (s.setBreakpoints l).sp = s.sp := rfl
@[simp] theorem State.setBreakpoints_stack (s : State) (l : List Word) : (s.setBreakpoints l).stack = s.stack := rfl
@[simp] theorem State.setBreakpoints_dt (s : State) (l : List Word) : (s.setBreakpoints l).dt = s.dt := rfl
@[simp] theorem State.setBreakpoints_st (s : State) (l : List Word) : (s.setBreakpoints l).st = s.st := rfl
@[simp] theorem State.setBreakpoints_mem (s : State) (l : List Word) : (s.setBreakpoints l).mem = s.mem := rfl
@[simp] theorem State.setBreakpoints_pix (s : State) (l : List Word) : (s.setBreakpoints l).pix = s.pix := rfl
@[simp] theorem State.setBreakpoints_key (s : State) (l : List Word) : (s.setBreakpoints l).key = s.key := rfl
@[simp] theorem State.setBreakpoints_breakpoints (s : State) (l : List Word) : (s.setBreakpoints l).breakpoints = l := rfl
@[simp] theorem State.setBreakpoints_running (s : State) (l : List Word) : (s.setBreakpoints l).running = s.running := rfl
@[simp] theorem State.setBreakpoints_cycles (s : State) (l : List Word) : (s.setBreakpoints l).cycles = s.cycles := rfl
@[simp] theorem State.setBreakpoints_stopRequest (s : State) (l : List Word) : (s.setBreakpoints l).stopRequest = s.stopRequest := rfl
@[simp] theorem State.setBreakpoints_fault (s : State) (l : List Word) : (s.setBreakpoints l).fault = s.fault := rfl
@[simp] theorem State.setBreakpoints_stopReason (s : State) (l : List Word) : (s.setBreakpoints l).stopReason = s.stopReason := rfl
@[simp] theorem State.setBreakpoints_displaySignal (s : State) (l : List Word) : (s.setBreakpoints l).displaySignal = s.displaySignal := rfl
@[simp] theorem State.setBreakpoints_audioSignal (s : State) (l : List Word) : (s.setBreakpoints l).audioSignal = s.audioSignal := rfl
@[simp] theorem State.setBreakpoints_draws (s : State) (l : List Word) : (s.setBreakpoints l).draws = s.draws := rfl
@[simp] theorem State.setBreakpoints_agenda (s : State) (l : List Word) : (s.setBreakpoints l).agenda = s.agenda := rfl
@[simp] theorem State.setBreakpoints_schedule (s : State) (l : List Word) : (s.setBreakpoints l).schedule = s.schedule := rfl
@[simp] theorem State.setBreakpoints_report (s : State) (l : List Word) : (s.setBreakpoints l).report = s.report := rfl

/-! The update `setDisplaySignal`. -/

@[simp] theorem State.setDisplaySignal_v (s : State) (b : Bool) : (s.setDisplaySignal b).v = s.v := rfl
@[simp] theorem State.setDisplaySignal_i (s : State) (b : Bool) : (s.setDisplaySignal b).i = s.i := rfl
@[simp] theorem State.setDisplaySignal_pc (s : State) (b : Bool) : (s.setDisplaySignal b).pc = s.pc := rfl
@[simp] theorem State.setDisplaySignal_sp (s : State) (b : Bool) : (s.setDisplaySignal b).sp = s.sp := rfl
@[simp] theorem State.setDisplaySignal_stack (s : State) (b : Bool) : (s.setDisplaySignal b).stack = s.stack := rfl
@[simp] theorem State.setDisplaySignal_dt (s : State) (b : Bool) : (s.setDisplaySignal b).dt = s.dt := rfl
@[simp] theorem State.setDisplaySignal_st (s : State) (b : Bool) : (s.setDisplaySignal b).st = s.st := rfl
@[simp] theorem State.setDisplaySignal_mem (s : State) (b : Bool) : (s.setDisplaySignal b).mem = s.mem := rfl
@[simp] theorem State.setDisplaySignal_pix (s : State) (b : Bool) : (s.setDisplaySignal b).pix = s.pix := rfl
@[simp] theorem State.setDisplaySignal_key (s : State) (b : Bool) : (s.setDisplaySignal b).key = s.key := rfl
@[simp] theorem State.setDisplaySignal_breakpoints (s : State) (b : Bool) : (s.setDisplaySignal b).breakpoints = s.breakpoints := rfl
@[simp] theorem State.setDisplaySignal_running (s : State) (b : Bool) : (s.setDisplaySignal b).running = s.running := rfl
@[simp] theorem State.setDisplaySignal_cycles (s : State) (b : Bool) : (s.setDisplaySignal b).cycles = s.cycles := rfl
@[simp] theorem State.setDisplaySignal_stopRequest (s : State) (b : Bool) : (s.setDisplaySignal b).stopRequest = s.stopRequest := rfl
@[simp] theorem State.setDisplaySignal_fault (s : State) (b : Bool) : (s.setDisplaySignal b).fault = s.fault := rfl
@[simp] theorem State.setDisplaySignal_stopReason (s : State) (b : Bool) : (s.setDisplaySignal b).stopReason = s.stopReason := rfl
@[simp] theorem State.setDisplaySignal_displaySignal (s : State) (b : Bool) : (s.setDisplaySignal b).displaySignal = b := rfl
@[simp] theorem State.setDisplaySignal_audioSignal (s : State) (b : Bool) : (s.setDisplaySignal b).audioSignal = s.audioSignal := rfl
@[simp] theorem State.setDisplaySignal_draws (s : State) (b : Bool) : (s.setDisplaySignal b).draws = s.draws := rfl
@[simp] theorem State.setDisplaySignal_agenda (s : State) (b : Bool) : (s.setDisplaySignal b).agenda = s.agenda := rfl
@[simp] theorem State.setDisplaySignal_schedule (s : State) (b : Bool) : (s.setDisplaySignal b).schedule = s.schedule := rfl
@[simp] theorem State.setDisplaySignal_report (s : State) (b : Bool) : (s.setDisplaySignal b).report = s.report := rfl

/-! The update `setAudioSignal`. -/

@[simp] theorem State.setAudioSignal_v (s : State) (b : Bool) : (s.setAudioSignal b).v = s.v := rfl
@[simp] theorem State.setAudioSignal_i (s : State) (b : Bool) : (s.setAudioSignal b).i = s.i := rfl
@[simp] theorem State.setAudioSignal_pc (s : State) (b : Bool) : (s.setAudioSignal b).pc = s.pc := rfl
@[simp] theorem State.setAudioSignal_sp (s : State) (b : Bool) : (s.setAudioSignal b).sp = s.sp := rfl
@[simp] theorem State.setAudioSignal_stack (s : State) (b : Bool) : (s.setAudioSignal b).stack = s.stack := rfl
@[simp] theorem State.setAudioSignal_dt (s : State) (b : Bool) : (s.setAudioSignal b).dt = s.dt := rfl
@[simp] theorem State.setAudioSignal_st (s : State) (b : Bool) : (s.setAudioSignal b).st = s.st := rfl
@[simp] theorem State.setAudioSignal_mem (s : State) (b : Bool) : (s.setAudioSignal b).mem = s.mem := rfl
@[simp] theorem State.setAudioSignal_pix (s : State) (b : Bool) : (s.setAudioSignal b).pix = s.pix := rfl
@[simp] theorem State.setAudioSignal_key (s : State) (b : Bool) : (s.setAudioSignal b).key = s.key := rfl
@[simp] theorem State.setAudioSignal_breakpoints (s : State) (b : Bool) : (s.setAudioSignal b).breakpoints = s.breakpoints := rfl
@[simp] theorem State.setAudioSignal_running (s : State) (b : Bool) : (s.setAudioSignal b).running = s.running := rfl
@[simp] theorem State.setAudioSignal_cycles (s : State) (b : Bool) : (s.setAudioSignal b).cycles = s.cycles := rfl
@[simp] theorem State.setAudioSignal_stopRequest (s : State) (b : Bool) : (s.setAudioSignal b).stopRequest = s.stopRequest := rfl
@[simp] theorem State.setAudioSignal_fault (s : State) (b : Bool) : (s.setAudioSignal b).fault = s.fault := rfl
@[simp] theorem State.setAudioSignal_stopReason (s : State) (b : Bool) : (s.setAudioSignal b).stopReason = s.stopReason := rfl
@[simp] theorem State.setAudioSignal_displaySignal (s : State) (b : Bool) : (s.setAudioSignal b).displaySignal = s.displaySignal := rfl
@[simp] theorem State.setAudioSignal_audioSignal (s : State) (b : Bool) : (s.setAudioSignal b).audioSignal = b := rfl
@[simp] theorem State.setAudioSignal_draws (s : State) (b : Bool) : (s.setAudioSignal b).draws = s.draws := rfl
@[simp] theorem State.setAudioSignal_agenda (s : State) (b : Bool) : (s.setAudioSignal b).agenda = s.agenda := rfl
@[simp] theorem State.setAudioSignal_schedule (s : State) (b : Bool) : (s.setAudioSignal b).schedule = s.schedule := rfl
@[simp] theorem State.setAudioSignal_report (s : State) (b : Bool) : (s.setAudioSignal b).report = s.report := rfl

/-! The update `setAgenda`. -/

@[simp] theorem State.setAgenda_v (s : State) (l : List Action) : (s.setAgenda l).v = s.v := rfl
@[simp] theorem State.setAgenda_i (s : State) (l : List Action) : (s.setAgenda l).i = s.i := rfl
@[simp] theorem State.setAgenda_pc (s : State) (l : List Action) : (s.setAgenda l).pc = s.pc := rfl
@[simp] theorem State.setAgenda_sp (s : State) (l : List Action) : (s.setAgenda l).sp = s.sp := rfl
@[simp] theorem State.setAgenda_stack (s : State) (l : List Action) : (s.setAgenda l).stack = s.stack := rfl
@[simp] theorem State.setAgenda_dt (s : State) (l : List Action) : (s.setAgenda l).dt = s.dt := rfl
@[simp] theorem State.setAgenda_st (s : State) (l : List Action) : (s.setAgenda l).st = s.st := rfl
@[simp] theorem State.setAgenda_mem (s : State) (l : List Action) : (s.setAgenda l).mem = s.mem := rfl
@[simp] theorem State.setAgenda_pix (s : State) (l : List Action) : (s.setAgenda l).pix = s.pix := rfl
@[simp] theorem State.setAgenda_key (s : State) (l : List Action) : (s.setAgenda l).key = s.key := rfl
@[simp] theorem State.setAgenda_breakpoints (s : State) (l : List Action) : (s.setAgenda l).breakpoints = s.breakpoints := rfl
@[simp] theorem State.setAgenda_running (s : State) (l : List Action) : (s.setAgenda l).running = s.running := rfl
@[simp] theorem State.setAgenda_cycles (s : State) (l : List Action) : (s.setAgenda l).cycles = s.cycles := rfl
@[simp] theorem State.setAgenda_stopRequest (s : State) (l : List Action) : (s.setAgenda l).stopRequest = s.stopRequest := rfl
@[simp] theorem State.setAgenda_fault (s : State) (l : List Action) : (s.setAgenda l).fault = s.fault := rfl
@[simp] theorem State.setAgenda_stopReason (s : State) (l : List Action) : (s.setAgenda l).stopReason = s.stopReason := rfl
@[simp] theorem State.setAgenda_displaySignal (s : State) (l : List Action) : (s.setAgenda l).displaySignal = s.displaySignal := rfl
@[simp] theorem State.setAgenda_audioSignal (s : State) (l : List Action) : (s.setAgenda l).audioSignal = s.audioSignal := rfl
@[simp] theorem State.setAgenda_draws (s : State) (l : List Action) : (s.setAgenda l).draws = s.draws := rfl
@[simp] theorem State.setAgenda_agenda (s : State) (l : List Action) : (s.setAgenda l).agenda = l := rfl
@[simp] theorem State.setAgenda_schedule (s : State) (l : List Action) : (s.setAgenda l).schedule = s.schedule := rfl
@[simp] theorem State.setAgenda_report (s : State) (l : List Action) : (s.setAgenda l).report = s.report := rfl

/-! The update `setSchedule`. -/

@[simp] theorem State.setSchedule_v (s : State) (c : Schedule) : (s.setSchedule c).v = s.v := rfl
@[simp] theorem State.setSchedule_i (s : State) (c : Schedule) : (s.setSchedule c).i = s.i := rfl
@[simp] theorem State.setSchedule_pc (s : State) (c : Schedule) : (s.setSchedule c).pc = s.pc := rfl
@[simp] theorem State.setSchedule_sp (s : State) (c : Schedule) : (s.setSchedule c).sp = s.sp := rfl
@[simp] theorem State.setSchedule_stack (s : State) (c : Schedule) : (s.setSchedule c).stack = s.stack := rfl
@[simp] theorem State.setSchedule_dt (s : State) (c : Schedule) : (s.setSchedule c).dt = s.dt := rfl
@[simp] theorem State.setSchedule_st (s : State) (c : Schedule) : (s.setSchedule c).st = s.st := rfl
@[simp] theorem State.setSchedule_mem (s : State) (c : Schedule) : (s.setSchedule c).mem = s.mem := rfl
@[simp] theorem State.setSchedule_pix (s : State) (c : Schedule) : (s.setSchedule c).pix = s.pix := rfl
@[simp] theorem State.setSchedule_key (s : State) (c : Schedule) : (s.setSchedule c).key = s.key := rfl
@[simp] theorem State.setSchedule_breakpoints (s : State) (c : Schedule) : (s.setSchedule c).breakpoints = s.breakpoints := rfl
@[simp] theorem State.setSchedule_running (s : State) (c : Schedule) : (s.setSchedule c).running = s.running := rfl
@[simp] theorem State.setSchedule_cycles (s : State) (c : Schedule) : (s.setSchedule c).cycles = s.cycles := rfl
@[simp] theorem State.setSchedule_stopRequest (s : State) (c : Schedule) : (s.setSchedule c).stopRequest = s.stopRequest := rfl
@[simp] theorem State.setSchedule_fault (s : State) (c : Schedule) : (s.setSchedule c).fault = s.fault := rfl
@[simp] theorem State.setSchedule_stopReason (s : State) (c : Schedule) : (s.setSchedule c).stopReason = s.stopReason := rfl
@[simp] theorem State.setSchedule_displaySignal (s : State) (c : Schedule) : (s.setSchedule c).displaySignal = s.displaySignal := rfl
@[simp] theorem State.setSchedule_audioSignal (s : State) (c : Schedule) : (s.setSchedule c).audioSignal = s.audioSignal := rfl
@[simp] theorem State.setSchedule_draws (s : State) (c : Schedule) : (s.setSchedule c).draws = s.draws := rfl
@[simp] theorem State.setSchedule_agenda (s : State) (c : Schedule) : (s.setSchedule c).agenda = s.agenda := rfl
@[simp] theorem State.setSchedule_schedule (s : State) (c : Schedule) : (s.setSchedule c).schedule = c := rfl
@[simp] theorem State.setSchedule_report (s : State) (c : Schedule) : (s.setSchedule c).report = s.report := rfl

/-! The update `setReport`. -/

@[simp] theorem State.setReport_v (s : State) (r : Report) : (s.setReport r).v = s.v := rfl
@[simp] theorem State.setReport_i (s : State) (r : Report) : (s.setReport r).i = s.i := rfl
@[simp] theorem State.setReport_pc (s : State) (r : Report) : (s.setReport r).pc = s.pc := rfl
@[simp] theorem State.setReport_sp (s : State) (r : Report) : (s.setReport r).sp = s.sp := rfl
@[simp] theorem State.setReport_stack (s : State) (r : Report) : (s.setReport r).stack = s.stack := rfl
@[simp] theorem State.setReport_dt (s : State) (r : Report) : (s.setReport r).dt = s.dt := rfl
@[simp] theorem State.setReport_st (s : State) (r : Report) : (s.setReport r).st = s.st := rfl
@[simp] theorem State.setReport_mem (s : State) (r : Report) : (s.setReport r).mem = s.mem := rfl
@[simp] theorem State.setReport_pix (s : State) (r : Report) : (s.setReport r).pix = s.pix := rfl
@[simp] theorem State.setReport_key (s : State) (r : Report) : (s.setReport r).key = s.key := rfl
@[simp] theorem State.setReport_breakpoints (s : State) (r : Report) : (s.setReport r).breakpoints = s.breakpoints := rfl
@[simp] theorem State.setReport_running (s : State) (r : Report) : (s.setReport r).running = s.running := rfl
@[simp] theorem State.setReport_cycles (s : State) (r : Report) : (s.setReport r).cycles = s.cycles := rfl
@[simp] theorem State.setReport_stopRequest (s : State) (r : Report) : (s.setReport r).stopRequest = s.stopRequest := rfl
@[simp] theorem State.setReport_fault (s : State) (r : Report) : (s.setReport r).fault = s.fault := rfl
@[simp] theorem State.setReport_stopReason (s : State) (r : Report) : (s.setReport r).stopReason = s.stopReason := rfl
@[simp] theorem State.setReport_displaySignal (s : State) (r : Report) : (s.setReport r).displaySignal = s.displaySignal := rfl
@[simp] theorem State.setReport_audioSignal (s : State) (r : Report) : (s.setReport r).audioSignal = s.audioSignal := rfl
@[simp] theorem State.setReport_draws (s : State) (r : Report) : (s.setReport r).draws = s.draws := rfl
@[simp] theorem State.setReport_agenda (s : State) (r : Report) : (s.setReport r).agenda = s.agenda := rfl
@[simp] theorem State.setReport_schedule (s : State) (r : Report) : (s.setReport r).schedule = s.schedule := rfl
@[simp] theorem State.setReport_report (s : State) (r : Report) : (s.setReport r).report = some r := rfl

/-! The stack pointer as a number. -/

@[simp] theorem State.push_sp_val (s : State) (w : Word) : (s.push w).sp.val = s.sp.val - 1 := rfl
@[simp] theorem State.pop_sp_val (s : State) (h : s.sp.val ≠ 16) : (s.pop h).sp.val = s.sp.val + 1 := rfl

/-! Taking the turn: it changes the agenda or the schedule, and nothing else. -/

/-- Whose turn it is, and the state without that turn (60_exceptions.md R331; log 2). -/
theorem State.turn_cases (s : State) :
    (∃ a rest, s.agenda = a :: rest ∧ s.turn = (a, s.setAgenda rest)) ∨
      (s.agenda = [] ∧ s.schedule = .tickLoop ∧ s.turn = (.iteration, s)) ∨
      ∃ n, s.agenda = [] ∧ s.schedule = .free n ∧ s.turn = (Config.freeAction n, s.setSchedule (.free (n + 1))) := by
  unfold State.turn
  split
  · exact .inl ⟨_, _, ‹_›, rfl⟩
  · split
    · exact .inr (.inl ⟨‹_›, ‹_›, rfl⟩)
    · exact .inr (.inr ⟨_, ‹_›, ‹_›, rfl⟩)

@[simp] theorem State.turn_v (s : State) : s.turn.2.v = s.v := by
  rcases s.turn_cases with ⟨_, _, _, h⟩ | ⟨_, _, h⟩ | ⟨_, _, _, h⟩ <;> rw [h] <;> rfl
@[simp] theorem State.turn_i (s : State) : s.turn.2.i = s.i := by
  rcases s.turn_cases with ⟨_, _, _, h⟩ | ⟨_, _, h⟩ | ⟨_, _, _, h⟩ <;> rw [h] <;> rfl
@[simp] theorem State.turn_pc (s : State) : s.turn.2.pc = s.pc := by
  rcases s.turn_cases with ⟨_, _, _, h⟩ | ⟨_, _, h⟩ | ⟨_, _, _, h⟩ <;> rw [h] <;> rfl
@[simp] theorem State.turn_sp (s : State) : s.turn.2.sp = s.sp := by
  rcases s.turn_cases with ⟨_, _, _, h⟩ | ⟨_, _, h⟩ | ⟨_, _, _, h⟩ <;> rw [h] <;> rfl
@[simp] theorem State.turn_stack (s : State) : s.turn.2.stack = s.stack := by
  rcases s.turn_cases with ⟨_, _, _, h⟩ | ⟨_, _, h⟩ | ⟨_, _, _, h⟩ <;> rw [h] <;> rfl
@[simp] theorem State.turn_dt (s : State) : s.turn.2.dt = s.dt := by
  rcases s.turn_cases with ⟨_, _, _, h⟩ | ⟨_, _, h⟩ | ⟨_, _, _, h⟩ <;> rw [h] <;> rfl
@[simp] theorem State.turn_st (s : State) : s.turn.2.st = s.st := by
  rcases s.turn_cases with ⟨_, _, _, h⟩ | ⟨_, _, h⟩ | ⟨_, _, _, h⟩ <;> rw [h] <;> rfl
@[simp] theorem State.turn_mem (s : State) : s.turn.2.mem = s.mem := by
  rcases s.turn_cases with ⟨_, _, _, h⟩ | ⟨_, _, h⟩ | ⟨_, _, _, h⟩ <;> rw [h] <;> rfl
@[simp] theorem State.turn_pix (s : State) : s.turn.2.pix = s.pix := by
  rcases s.turn_cases with ⟨_, _, _, h⟩ | ⟨_, _, h⟩ | ⟨_, _, _, h⟩ <;> rw [h] <;> rfl
@[simp] theorem State.turn_key (s : State) : s.turn.2.key = s.key := by
  rcases s.turn_cases with ⟨_, _, _, h⟩ | ⟨_, _, h⟩ | ⟨_, _, _, h⟩ <;> rw [h] <;> rfl
@[simp] theorem State.turn_breakpoints (s : State) : s.turn.2.breakpoints = s.breakpoints := by
  rcases s.turn_cases with ⟨_, _, _, h⟩ | ⟨_, _, h⟩ | ⟨_, _, _, h⟩ <;> rw [h] <;> rfl
@[simp] theorem State.turn_running (s : State) : s.turn.2.running = s.running := by
  rcases s.turn_cases with ⟨_, _, _, h⟩ | ⟨_, _, h⟩ | ⟨_, _, _, h⟩ <;> rw [h] <;> rfl
@[simp] theorem State.turn_cycles (s : State) : s.turn.2.cycles = s.cycles := by
  rcases s.turn_cases with ⟨_, _, _, h⟩ | ⟨_, _, h⟩ | ⟨_, _, _, h⟩ <;> rw [h] <;> rfl
@[simp] theorem State.turn_stopRequest (s : State) : s.turn.2.stopRequest = s.stopRequest := by
  rcases s.turn_cases with ⟨_, _, _, h⟩ | ⟨_, _, h⟩ | ⟨_, _, _, h⟩ <;> rw [h] <;> rfl
@[simp] theorem State.turn_fault (s : State) : s.turn.2.fault = s.fault := by
  rcases s.turn_cases with ⟨_, _, _, h⟩ | ⟨_, _, h⟩ | ⟨_, _, _, h⟩ <;> rw [h] <;> rfl
@[simp] theorem State.turn_stopReason (s : State) : s.turn.2.stopReason = s.stopReason := by
  rcases s.turn_cases with ⟨_, _, _, h⟩ | ⟨_, _, h⟩ | ⟨_, _, _, h⟩ <;> rw [h] <;> rfl
@[simp] theorem State.turn_displaySignal (s : State) : s.turn.2.displaySignal = s.displaySignal := by
  rcases s.turn_cases with ⟨_, _, _, h⟩ | ⟨_, _, h⟩ | ⟨_, _, _, h⟩ <;> rw [h] <;> rfl
@[simp] theorem State.turn_audioSignal (s : State) : s.turn.2.audioSignal = s.audioSignal := by
  rcases s.turn_cases with ⟨_, _, _, h⟩ | ⟨_, _, h⟩ | ⟨_, _, _, h⟩ <;> rw [h] <;> rfl
@[simp] theorem State.turn_draws (s : State) : s.turn.2.draws = s.draws := by
  rcases s.turn_cases with ⟨_, _, _, h⟩ | ⟨_, _, h⟩ | ⟨_, _, _, h⟩ <;> rw [h] <;> rfl
@[simp] theorem State.turn_report (s : State) : s.turn.2.report = s.report := by
  rcases s.turn_cases with ⟨_, _, _, h⟩ | ⟨_, _, h⟩ | ⟨_, _, _, h⟩ <;> rw [h] <;> rfl

end Sys2Proof.Machine
end

