-- ==== Sys2Proof/Laws/Draw.lean ====
section
/-! SUPPORT. What a blit does: each pixel of the grid is exchanged once if its sprite bit is set, and there is a collision
if one of those pixels was set (43_display.md R222). -/

namespace Sys2Proof.Machine

theorem Pixmap.get_toggle (p : Pixmap) (px py qx qy : Nat) :
    (p.toggle px py).get qx qy =
      if qx = px ∧ qy = py ∧ px < 64 ∧ py < 32 then !p.get px py else p.get qx qy := by
  by_cases h : px < 64 ∧ py < 32
  · by_cases hq : qx < 64 ∧ qy < 32
    · simp only [Pixmap.toggle, Pixmap.get, dif_pos h, dif_pos hq, Vector.getElem_set]
      by_cases hx : px = qx
      · subst hx
        by_cases hy : py = qy
        · subst hy; simp [h]
        · have hy' : ¬ qy = py := fun e => hy e.symm
          simp [hy, hy']
      · have hx' : ¬ qx = px := fun e => hx e.symm
        simp [hx, hx']
    · have hne : ¬ (qx = px ∧ qy = py ∧ px < 64 ∧ py < 32) := by
        rintro ⟨rfl, rfl, h1, h2⟩
        exact hq ⟨h1, h2⟩
      rw [if_neg hne]
      simp only [Pixmap.get, dif_neg hq]
  · have hne : ¬ (qx = px ∧ qy = py ∧ px < 64 ∧ py < 32) := fun e => h ⟨e.2.2.1, e.2.2.2⟩
    rw [if_neg hne]
    simp only [Pixmap.toggle, dif_neg h]

theorem Pixmap.get_off (p : Pixmap) (qx qy : Nat) (h : ¬ (qx < 64 ∧ qy < 32)) : p.get qx qy = false := by
  simp only [Pixmap.get, dif_neg h]

theorem Pixmap.get_clear (qx qy : Nat) : Pixmap.clear.get qx qy = false := by
  unfold Pixmap.get Pixmap.clear
  split <;> simp

/-- Two maps with the same pixels are the same map. -/
theorem Pixmap.ext_get (p q : Pixmap) (h : ∀ px py, p.get px py = q.get px py) : p = q := by
  apply Vector.ext
  intro i hi
  apply Vector.ext
  intro j hj
  have := h i j
  simpa [Pixmap.get, hi, hj] using this

/-- The bit of a row that lies at column `qx`, with the row's first bit at column `px`. -/
def bitAt (px : Nat) (bits : List Bool) (qx : Nat) : Bool :=
  if px ≤ qx then bits.getD (qx - px) false else false

/-- The bit of a sprite at (qx, qy), with its top left corner at (x0, py). -/
def spriteAt (x0 py : Nat) (rows : List Byte) (qx qy : Nat) : Bool :=
  if py ≤ qy then
    match rows[qy - py]? with
    | some b => bitAt x0 (spriteBits b) qx
    | none => false
  else false

/-- One bit: its pixel, if it is set and on the grid, is exchanged. -/
theorem drawBit_get (px py : Nat) (bit : Bool) (d : Blit) (qx qy : Nat) :
    (drawBit px py bit d).pix.get qx qy =
      if qx = px ∧ qy = py ∧ px < 64 ∧ py < 32 then bit ^^ d.pix.get qx qy else d.pix.get qx qy := by
  unfold drawBit
  cases bit with
  | false => simp
  | true =>
    by_cases h : px < 64 ∧ py < 32
    · rw [if_pos (show (true && decide (px < Config.columns ∧ py < Config.rows)) = true from decide_eq_true h)]
      simp only [Pixmap.get_toggle]
      by_cases hq : qx = px ∧ qy = py ∧ px < 64 ∧ py < 32
      · rw [if_pos hq, if_pos hq, hq.1, hq.2.1]
        simp
      · rw [if_neg hq, if_neg hq]
    · have h2 : ¬ (qx = px ∧ qy = py ∧ px < 64 ∧ py < 32) := fun e => h ⟨e.2.2.1, e.2.2.2⟩
      rw [if_neg (show ¬ (true && decide (px < Config.columns ∧ py < Config.rows)) = true from fun e => h (of_decide_eq_true e)), if_neg h2]

theorem drawBit_collision (px py : Nat) (bit : Bool) (d : Blit) :
    (drawBit px py bit d).collision = (d.collision || (bit && d.pix.get px py)) := by
  unfold drawBit
  cases bit with
  | false => simp
  | true =>
    by_cases h : px < 64 ∧ py < 32
    · rw [if_pos (show (true && decide (px < Config.columns ∧ py < Config.rows)) = true from decide_eq_true h)]
      simp
    · rw [if_neg (show ¬ (true && decide (px < Config.columns ∧ py < Config.rows)) = true from fun e => h (of_decide_eq_true e)),
        Pixmap.get_off _ _ _ h]
      simp

/-- One row: the pixels of row `py` whose bit is set are exchanged; the others stay. -/
theorem drawBits_get (py px : Nat) (bits : List Bool) (d : Blit) (qx qy : Nat) (hq : qx < 64 ∧ qy < 32) :
    (drawBits py px bits d).pix.get qx qy = ((decide (qy = py) && bitAt px bits qx) ^^ d.pix.get qx qy) := by
  induction bits generalizing px d with
  | nil => simp [drawBits, bitAt]
  | cons b bs ih =>
    simp only [drawBits, ih, drawBit_get]
    by_cases hy : qy = py
    · subst hy
      by_cases hx : qx = px
      · subst hx
        have h1 : ¬ qx + 1 ≤ qx := by omega
        simp [bitAt, hq]
      · have h1 : ¬ (qx = px ∧ qy = qy ∧ px < 64 ∧ qy < 32) := fun e => hx e.1
        rw [if_neg h1]
        by_cases hle : px ≤ qx
        · have h2 : px + 1 ≤ qx := by omega
          have h3 : qx - px = qx - (px + 1) + 1 := by omega
          simp only [bitAt, if_pos hle, if_pos h2, h3, List.getD_cons_succ]
        · have h2 : ¬ px + 1 ≤ qx := by omega
          simp only [bitAt, if_neg hle, if_neg h2]
    · have h1 : ¬ (qx = px ∧ qy = py ∧ px < 64 ∧ py < 32) := fun e => hy e.2.1
      rw [if_neg h1]
      simp [hy]

theorem drawBits_collision (py px : Nat) (bits : List Bool) (d : Blit) :
    (drawBits py px bits d).collision = true ↔
      d.collision = true ∨ ∃ qx, bitAt px bits qx = true ∧ d.pix.get qx py = true := by
  induction bits generalizing px d with
  | nil => simp [drawBits, bitAt]
  | cons b bs ih =>
    simp only [drawBits, ih, drawBit_collision, Bool.or_eq_true, Bool.and_eq_true]
    constructor
    · rintro ((h | ⟨hb, hp⟩) | ⟨qx, hb, hp⟩)
      · exact .inl h
      · exact .inr ⟨px, by simpa [bitAt] using hb, hp⟩
      · have hle : px + 1 ≤ qx := by
          by_contra hc
          simp [bitAt, hc] at hb
        refine .inr ⟨qx, ?_, ?_⟩
        · have h3 : qx - px = qx - (px + 1) + 1 := by omega
          have h4 : px ≤ qx := by omega
          simpa only [bitAt, if_pos hle, if_pos h4, h3, List.getD_cons_succ] using hb
        · rw [drawBit_get, if_neg (by omega)] at hp
          exact hp
    · rintro (h | ⟨qx, hb, hp⟩)
      · exact .inl (.inl h)
      · by_cases hx : qx = px
        · subst hx
          exact .inl (.inr ⟨by simpa [bitAt] using hb, hp⟩)
        · have hle : px ≤ qx := by
            by_contra hc
            simp [bitAt, hc] at hb
          have h2 : px + 1 ≤ qx := by omega
          have h3 : qx - px = qx - (px + 1) + 1 := by omega
          refine .inr ⟨qx, ?_, ?_⟩
          · simpa only [bitAt, if_pos hle, if_pos h2, h3, List.getD_cons_succ] using hb
          · rw [drawBit_get, if_neg (by omega)]
            exact hp

/-- A blit: every pixel of the grid is exchanged if its sprite bit is set, and stays otherwise. -/
theorem drawRows_get (x0 py : Nat) (rows : List Byte) (d : Blit) (qx qy : Nat) (hq : qx < 64 ∧ qy < 32) :
    (drawRows x0 py rows d).pix.get qx qy = (spriteAt x0 py rows qx qy ^^ d.pix.get qx qy) := by
  induction rows generalizing py d with
  | nil => simp [drawRows, spriteAt]
  | cons b bs ih =>
    simp only [drawRows, ih, drawBits_get _ _ _ _ _ _ hq]
    by_cases hy : qy = py
    · subst hy
      have h1 : ¬ qy + 1 ≤ qy := by omega
      simp [spriteAt]
    · by_cases hle : py ≤ qy
      · have h2 : py + 1 ≤ qy := by omega
        have h3 : qy - py = qy - (py + 1) + 1 := by omega
        simp [spriteAt, hy, hle, h2, h3]
      · have h2 : ¬ py + 1 ≤ qy := by omega
        simp [spriteAt, hy, hle, h2]

/-- A blit: a collision is a sprite bit on a pixel that was set. -/
theorem drawRows_collision (x0 py : Nat) (rows : List Byte) (d : Blit) :
    (drawRows x0 py rows d).collision = true ↔
      d.collision = true ∨ ∃ qx qy, spriteAt x0 py rows qx qy = true ∧ d.pix.get qx qy = true := by
  induction rows generalizing py d with
  | nil => simp [drawRows, spriteAt]
  | cons b bs ih =>
    simp only [drawRows, ih, drawBits_collision]
    have later : ∀ qx qy, (drawBits py x0 (spriteBits b) d).pix.get qx qy = true → py + 1 ≤ qy →
        d.pix.get qx qy = true := by
      intro qx qy h hle
      by_cases hq : qx < 64 ∧ qy < 32
      · rw [drawBits_get _ _ _ _ _ _ hq] at h
        have hne : ¬ qy = py := by omega
        simpa [hne] using h
      · rw [Pixmap.get_off _ _ _ hq] at h
        exact absurd h (by simp)
    have earlier : ∀ qx qy, d.pix.get qx qy = true → py + 1 ≤ qy →
        (drawBits py x0 (spriteBits b) d).pix.get qx qy = true := by
      intro qx qy h hle
      have hq : qx < 64 ∧ qy < 32 := by
        by_contra hc
        rw [Pixmap.get_off _ _ _ hc] at h
        exact absurd h (by simp)
      rw [drawBits_get _ _ _ _ _ _ hq]
      have hne : ¬ qy = py := by omega
      simpa [hne] using h
    constructor
    · rintro ((h | ⟨qx, hb, hp⟩) | ⟨qx, qy, hb, hp⟩)
      · exact .inl h
      · exact .inr ⟨qx, py, by simpa [spriteAt] using hb, hp⟩
      · have hle : py + 1 ≤ qy := by
          by_contra hc
          simp [spriteAt, hc] at hb
        have h3 : qy - py = qy - (py + 1) + 1 := by omega
        have h4 : py ≤ qy := by omega
        exact .inr ⟨qx, qy, by simpa [spriteAt, hle, h4, h3] using hb, later qx qy hp hle⟩
    · rintro (h | ⟨qx, qy, hb, hp⟩)
      · exact .inl (.inl h)
      · have hle : py ≤ qy := by
          by_contra hc
          simp [spriteAt, hc] at hb
        by_cases hy : qy = py
        · subst hy
          exact .inl (.inr ⟨qx, by simpa [spriteAt] using hb, hp⟩)
        · have h2 : py + 1 ≤ qy := by omega
          have h3 : qy - py = qy - (py + 1) + 1 := by omega
          exact .inr ⟨qx, qy, by simpa [spriteAt, hle, h2, h3] using hb, earlier qx qy hp h2⟩

end Sys2Proof.Machine
end

