-- ==== Sys2Proof/Laws/Memory.lean ====
section
/-! SUPPORT. The laws of MEM: a read after a write, the canonical form kept by every memory operation (20_memory.md R79;
log 8). -/

namespace Sys2Proof.Machine

/-! Reading. -/

theorem Memory.read_eq_unlisted (a : Nat) (m : Memory) (h : ∀ c ∈ m, c.1 ≠ a) : Memory.read a m = Memory.unlisted a := by
  induction m with
  | nil => rfl
  | cons c m ih =>
    have h1 : c.1 ≠ a := h c (by simp)
    simp only [Memory.read, if_neg h1]
    exact ih fun d hd => h d (by simp [hd])

theorem Memory.not_mem_erase (a : Nat) (m : Memory) : ∀ c ∈ Memory.erase a m, c.1 ≠ a := by
  intro c hc
  simpa using (List.mem_filter.mp hc).2

theorem Memory.read_filter (q : Nat → Bool) (a : Nat) (m : Memory) (h : q a = true) :
    Memory.read a (m.filter fun c => q c.1) = Memory.read a m := by
  induction m with
  | nil => rfl
  | cons c m ih =>
    by_cases hk : c.1 = a
    · have hq : q c.1 = true := by rw [hk]; exact h
      rw [List.filter_cons, if_pos hq]
      simp only [Memory.read, if_pos hk]
    · cases hq : q c.1 <;> simp [List.filter, hq, Memory.read, hk, ih]

theorem Memory.read_erase_ne (a k : Nat) (m : Memory) (h : k ≠ a) :
    Memory.read k (Memory.erase a m) = Memory.read k m :=
  Memory.read_filter (fun j => j != a) k m (by simpa using h)

theorem Memory.read_insert_same (a : Nat) (b : Byte) (m : Memory) (h : ∀ c ∈ m, c.1 ≠ a) :
    Memory.read a (Memory.insert a b m) = b := by
  induction m with
  | nil => simp [Memory.insert, Memory.read]
  | cons c m ih =>
    have h1 : c.1 ≠ a := h c (by simp)
    simp only [Memory.insert]
    split
    · simp [Memory.read]
    · simp only [Memory.read, if_neg h1]
      exact ih fun d hd => h d (by simp [hd])

theorem Memory.read_insert_ne (a k : Nat) (b : Byte) (m : Memory) (h : k ≠ a) :
    Memory.read k (Memory.insert a b m) = Memory.read k m := by
  induction m with
  | nil => simp [Memory.insert, Memory.read, Ne.symm h]
  | cons c m ih =>
    simp only [Memory.insert]
    split
    · simp [Memory.read, Ne.symm h]
    · simp only [Memory.read, ih]

/-- A read after a write to the same address gives the byte written, in every memory. -/
@[simp] theorem Memory.read_write_same (a : Nat) (b : Byte) (m : Memory) : Memory.read a (Memory.write a b m) = b := by
  unfold Memory.write
  split
  · rename_i hb
    rw [Memory.read_eq_unlisted a _ (Memory.not_mem_erase a m), hb]
  · exact Memory.read_insert_same a b _ (Memory.not_mem_erase a m)

/-- A write leaves every other address as it was, in every memory. -/
theorem Memory.read_write_ne (a k : Nat) (b : Byte) (m : Memory) (h : k ≠ a) :
    Memory.read k (Memory.write a b m) = Memory.read k m := by
  unfold Memory.write
  split
  · exact Memory.read_erase_ne a k m h
  · rw [Memory.read_insert_ne a k b _ h, Memory.read_erase_ne a k m h]

/-- What a read after a write gives, at every address. -/
theorem Memory.read_write (a k : Nat) (b : Byte) (m : Memory) :
    Memory.read k (Memory.write a b m) = if k = a then b else Memory.read k m := by
  by_cases h : k = a
  · subst h; simp
  · rw [Memory.read_write_ne a k b m h, if_neg h]

/-- What a read after the writing of a list gives, at every address. -/
theorem Memory.read_writeList (a k : Nat) (bs : List Byte) (m : Memory) :
    Memory.read k (Memory.writeList a bs m) =
      if a ≤ k ∧ k < a + bs.length then bs.getD (k - a) 0 else Memory.read k m := by
  induction bs generalizing a m with
  | nil =>
    have h : ¬ (a ≤ k ∧ k < a + 0) := by omega
    simp only [Memory.writeList, List.length_nil, if_neg h]
  | cons b bs ih =>
    simp only [Memory.writeList, ih, Memory.read_write, List.length_cons]
    by_cases h1 : k = a
    · subst h1
      have h2 : ¬ (k + 1 ≤ k ∧ k < k + 1 + bs.length) := by omega
      have h3 : k ≤ k ∧ k < k + (bs.length + 1) := by omega
      simp [h3]
    · by_cases h2 : a + 1 ≤ k ∧ k < a + 1 + bs.length
      · have h3 : a ≤ k ∧ k < a + (bs.length + 1) := by omega
        have h4 : k - a = (k - (a + 1)) + 1 := by omega
        rw [if_pos h2, if_pos h3, h4]
        simp
      · have h3 : ¬ (a ≤ k ∧ k < a + (bs.length + 1)) := by omega
        rw [if_neg h2, if_neg h3, if_neg h1]

/-- At power-on every address from 0x050 on reads 0. -/
theorem Memory.unlisted_of_le (a : Nat) (h : 0x50 ≤ a) : Memory.unlisted a = 0 := by
  have hl : font.length = 80 := by decide
  unfold Memory.unlisted fontBase
  rw [if_pos (Nat.zero_le a)]
  simp only [Nat.sub_zero, List.getD_eq_getElem?_getD]
  rw [List.getElem?_eq_none (by omega)]
  rfl

/-- Clearing the program region: 0 from 0x200 on, the font region as it was. -/
theorem Memory.read_clearProgram (a : Nat) (m : Memory) :
    Memory.read a (Memory.clearProgram m) = if a < 0x200 then Memory.read a m else 0 := by
  by_cases h : a < 0x200
  · rw [if_pos h]
    exact Memory.read_filter (fun k => decide (k < Config.programBase)) a m (decide_eq_true h)
  · rw [if_neg h, Memory.read_eq_unlisted, Memory.unlisted_of_le a (by omega)]
    intro c hc
    have h2 : c.1 < Config.programBase := by simpa using (List.mem_filter.mp hc).2
    simp only [Config.programBase] at h2
    omega

/-! The canonical form. -/

theorem Memory.risesFrom_filter (q : Host.Cell → Bool) (o : Option Nat) (m : Memory)
    (h : Memory.risesFrom o m = true) : Memory.risesFrom o (m.filter q) = true := by
  have weaken : ∀ (m : Memory) (j : Nat) (o : Option Nat), (∀ i, o = some i → i < j) →
      Memory.risesFrom (some j) m = true → Memory.risesFrom o m = true := by
    intro m j o ho hj
    cases m with
    | nil => cases o <;> rfl
    | cons c m =>
      simp only [Memory.risesFrom, Bool.and_eq_true, decide_eq_true_eq] at hj
      cases o with
      | none => exact hj.2
      | some i =>
        have hi := ho i rfl
        simp only [Memory.risesFrom, Bool.and_eq_true, decide_eq_true_eq]
        exact ⟨Nat.lt_trans hi hj.1, hj.2⟩
  induction m generalizing o with
  | nil => exact h
  | cons c m ih =>
    have hc : (∀ i, o = some i → i < c.1) ∧ Memory.risesFrom (some c.1) m = true := by
      cases o with
      | none => exact ⟨fun i hi => (nomatch hi), h⟩
      | some i =>
        simp only [Memory.risesFrom, Bool.and_eq_true, decide_eq_true_eq] at h
        exact ⟨fun j hj => by cases hj; exact h.1, h.2⟩
    cases hq : q c
    · simp only [List.filter, hq]
      exact weaken _ c.1 o hc.1 (ih (some c.1) hc.2)
    · simp only [List.filter, hq]
      cases o with
      | none => exact ih (some c.1) hc.2
      | some i =>
        simp only [Memory.risesFrom, Bool.and_eq_true, decide_eq_true_eq]
        exact ⟨hc.1 i rfl, ih (some c.1) hc.2⟩

theorem Memory.risesFrom_insert (a : Nat) (b : Byte) (o : Option Nat) (m : Memory) (ha : ∀ c ∈ m, c.1 ≠ a)
    (ho : ∀ i, o = some i → i < a) (h : Memory.risesFrom o m = true) :
    Memory.risesFrom o (Memory.insert a b m) = true := by
  induction m generalizing o with
  | nil =>
    cases o with
    | none => rfl
    | some i => simp [Memory.insert, Memory.risesFrom, ho i rfl]
  | cons c m ih =>
    have hne : c.1 ≠ a := ha c (by simp)
    have hm : ∀ d ∈ m, d.1 ≠ a := fun d hd => ha d (by simp [hd])
    simp only [Memory.insert]
    by_cases hk : a < c.1
    · rw [if_pos hk]
      cases o with
      | none => simpa [Memory.risesFrom, hk] using h
      | some i =>
        simp only [Memory.risesFrom, Bool.and_eq_true, decide_eq_true_eq] at h ⊢
        exact ⟨ho i rfl, hk, h.2⟩
    · rw [if_neg hk]
      have ho' : ∀ i, some c.1 = some i → i < a := fun i hi => by cases hi; omega
      cases o with
      | none => exact ih (some c.1) hm ho' h
      | some i =>
        simp only [Memory.risesFrom, Bool.and_eq_true, decide_eq_true_eq] at h ⊢
        exact ⟨h.1, ih (some c.1) hm ho' h.2⟩

theorem Memory.mem_insert (a : Nat) (b : Byte) (m : Memory) (c : Host.Cell) (h : c ∈ Memory.insert a b m) :
    c = (a, b) ∨ c ∈ m := by
  induction m with
  | nil => simpa [Memory.insert] using h
  | cons d m ih =>
    simp only [Memory.insert] at h
    split at h
    · simpa using h
    · rcases List.mem_cons.mp h with h | h
      · simp [h]
      · rcases ih h with h | h
        · exact .inl h
        · simp [h]

/-- Leaving out entries keeps the canonical form. -/
theorem Memory.wf_filter (q : Host.Cell → Bool) (m : Memory) (h : Memory.wf m = true) : Memory.wf (m.filter q) = true := by
  simp only [Memory.wf, Bool.and_eq_true, List.all_eq_true] at h ⊢
  exact ⟨Memory.risesFrom_filter q none m h.1, fun c hc => h.2 c (List.mem_filter.mp hc).1⟩

/-- A write below 0x1000 keeps the canonical form. -/
theorem Memory.wf_write (a : Nat) (b : Byte) (m : Memory) (ha : a < 0x1000) (h : Memory.wf m = true) :
    Memory.wf (Memory.write a b m) = true := by
  have he : Memory.wf (Memory.erase a m) = true := Memory.wf_filter _ m h
  unfold Memory.write
  split
  · exact he
  · rename_i hb
    simp only [Memory.wf, Bool.and_eq_true, List.all_eq_true] at he ⊢
    refine ⟨Memory.risesFrom_insert a b none _ (Memory.not_mem_erase a m) (fun i hi => nomatch hi) he.1, ?_⟩
    intro c hc
    rcases Memory.mem_insert a b _ c hc with hc | hc
    · subst hc
      exact ⟨decide_eq_true ha, by simpa using hb⟩
    · exact he.2 c hc

/-- Clearing the program region keeps the canonical form. -/
theorem Memory.wf_clearProgram (m : Memory) (h : Memory.wf m = true) : Memory.wf (Memory.clearProgram m) = true :=
  Memory.wf_filter _ m h

/-- Writing a list that ends below 0x1000 keeps the canonical form. -/
theorem Memory.wf_writeList (a : Nat) (bs : List Byte) (m : Memory) (ha : a + bs.length ≤ 0x1000)
    (h : Memory.wf m = true) : Memory.wf (Memory.writeList a bs m) = true := by
  induction bs generalizing a m with
  | nil => exact h
  | cons b bs ih =>
    simp only [List.length_cons] at ha
    exact ih (a + 1) _ (by omega) (Memory.wf_write a b m (by omega) h)

end Sys2Proof.Machine
end

