-- ==== Sys2Proof/Laws/Ops.lean ====
section
/-! SUPPORT. One lemma per shared operation: everything it does, for the proofs to cite. -/

namespace Sys2Proof.Machine

/-! Registers. -/

/-- A register after a register write. -/
theorem State.reg_setReg (s : State) (x : RegIdx) (b : Byte) (r : RegIdx) :
    (s.setReg x b).reg r = if r = x then b else s.reg r := by
  simp only [State.reg, State.setReg_v, Vector.getElem_set]
  by_cases h : r = x
  · subst h; simp
  · have h2 : x.toNat ≠ r.toNat := fun e => h (BitVec.eq_of_toNat_eq e.symm)
    simp [h, h2]

/-- The registers are what `v` holds. -/
theorem State.reg_of_v_eq (s t : State) (h : t.v = s.v) (r : RegIdx) : t.reg r = s.reg r := by
  simp only [State.reg, h]

@[simp] theorem State.reg_setPc (s : State) (w : Word) (r : RegIdx) : (s.setPc w).reg r = s.reg r := rfl
@[simp] theorem State.reg_advance (s : State) (r : RegIdx) : s.advance.reg r = s.reg r := rfl
@[simp] theorem State.reg_skipIf (s : State) (c : Bool) (r : RegIdx) : (s.skipIf c).reg r = s.reg r := rfl
@[simp] theorem State.reg_setIndex (s : State) (w : Word) (r : RegIdx) : (s.setIndex w).reg r = s.reg r := rfl
@[simp] theorem State.reg_setDelay (s : State) (b : Byte) (r : RegIdx) : (s.setDelay b).reg r = s.reg r := rfl
@[simp] theorem State.reg_setSound (s : State) (b : Byte) (r : RegIdx) : (s.setSound b).reg r = s.reg r := rfl
@[simp] theorem State.reg_store (s : State) (a : Nat) (b : Byte) (r : RegIdx) : (s.store a b).reg r = s.reg r := rfl
@[simp] theorem State.reg_push (s : State) (w : Word) (r : RegIdx) : (s.push w).reg r = s.reg r := rfl
@[simp] theorem State.reg_pop (s : State) (h : s.sp.val ≠ 16) (r : RegIdx) : (s.pop h).reg r = s.reg r := rfl
@[simp] theorem State.reg_takeFault (s : State) (c : FaultCause) (r : RegIdx) : (s.takeFault c).reg r = s.reg r := rfl
@[simp] theorem State.reg_setPix (s : State) (p : Pixmap) (r : RegIdx) : (s.setPix p).reg r = s.reg r := rfl
@[simp] theorem State.reg_drawn (s : State) (r : RegIdx) : s.drawn.reg r = s.reg r := rfl

/-! Memory. -/

/-- A byte after a store, at every address. -/
theorem State.byteAt_store (s : State) (a : Nat) (b : Byte) (k : Nat) :
    (s.store a b).byteAt k = if k = a then b else s.byteAt k := Memory.read_write a k b s.mem

@[simp] theorem State.byteAt_setReg (s : State) (x : RegIdx) (b : Byte) (k : Nat) :
    (s.setReg x b).byteAt k = s.byteAt k := rfl
@[simp] theorem State.byteAt_advance (s : State) (k : Nat) : s.advance.byteAt k = s.byteAt k := rfl

/-- An effective address lies in MEM. -/
theorem ea_lt (base : Word) (k : Nat) : ea base k < 0x1000 := by
  unfold ea Config.memorySize
  omega

/-- Two offsets less than 0x1000 apart reach two addresses. -/
theorem ea_inj (base : Word) (j k : Nat) (hj : j < 0x1000) (hk : k < 0x1000) (h : ea base j = ea base k) : j = k := by
  unfold ea Config.memorySize at h
  omega

/-- Storing the first registers changes the memory only. -/
theorem State.storeRegs_eq (s : State) (n : Nat) : s.storeRegs n = { s with mem := (s.storeRegs n).mem } := by
  induction n with
  | zero => rfl
  | succ n ih =>
    simp only [State.storeRegs]
    generalize s.storeRegs n = t at ih ⊢
    rw [ih]
    rfl

theorem State.reg_storeRegs (s : State) (n : Nat) (r : RegIdx) : (s.storeRegs n).reg r = s.reg r := by
  rw [State.storeRegs_eq]
  rfl

/-- The bytes after the first `n` registers are stored. -/
theorem State.byteAt_storeRegs (s : State) (n : Nat) (hn : n ≤ 16) (a : Nat) :
    (∀ k, k < n → a = ea s.i k → (s.storeRegs n).byteAt a = s.reg (BitVec.ofNat 4 k)) ∧
      ((∀ k, k < n → a ≠ ea s.i k) → (s.storeRegs n).byteAt a = s.byteAt a) := by
  induction n with
  | zero => exact ⟨fun k hk => absurd hk (Nat.not_lt_zero k), fun _ => rfl⟩
  | succ n ih =>
    obtain ⟨ih1, ih2⟩ := ih (by omega)
    simp only [State.storeRegs, State.byteAt_store]
    constructor
    · intro k hk ha
      by_cases hkn : k = n
      · subst hkn; rw [if_pos ha]
      · have hne : a ≠ ea s.i n := fun e => hkn (ea_inj s.i k n (by omega) (by omega) (ha.symm.trans e))
        rw [if_neg hne]
        exact ih1 k (by omega) ha
    · intro h
      rw [if_neg (h n (by omega))]
      exact ih2 fun k hk => h k (by omega)

/-- Storing the first registers keeps the canonical form. -/
theorem State.wf_storeRegs (s : State) (n : Nat) (h : Memory.wf s.mem = true) :
    Memory.wf (s.storeRegs n).mem = true := by
  induction n with
  | zero => exact h
  | succ n ih => exact Memory.wf_write _ _ _ (ea_lt s.i n) ih

/-- Loading the first registers changes the registers only. -/
theorem State.loadRegs_eq (s : State) (n : Nat) : s.loadRegs n = { s with v := (s.loadRegs n).v } := by
  induction n with
  | zero => rfl
  | succ n ih =>
    simp only [State.loadRegs]
    generalize s.loadRegs n = t at ih ⊢
    rw [ih]
    rfl

/-- The registers after the first `n` are loaded. -/
theorem State.reg_loadRegs (s : State) (n : Nat) (hn : n ≤ 16) (r : RegIdx) :
    (s.loadRegs n).reg r = if r.toNat < n then s.byteAt (ea s.i r.toNat) else s.reg r := by
  induction n with
  | zero => rfl
  | succ n ih =>
    simp only [State.loadRegs, State.reg_setReg, ih (by omega)]
    have hofn : (BitVec.ofNat 4 n).toNat = n := by
      rw [BitVec.toNat_ofNat]; omega
    by_cases h : r = BitVec.ofNat 4 n
    · have h1 : r.toNat = n := by rw [h, hofn]
      rw [if_pos h, if_pos (by omega), h1]
    · have h1 : r.toNat ≠ n := fun e => h (BitVec.eq_of_toNat_eq (by rw [hofn]; exact e))
      rw [if_neg h]
      by_cases h2 : r.toNat < n
      · rw [if_pos h2, if_pos (by omega)]
      · rw [if_neg h2, if_neg (by omega)]

/-! Keys. -/

/-- A key after a key update. -/
theorem State.keyDown_setKey (s : State) (k : Nibble) (p : Bool) (j : Nibble) :
    (s.setKey k p).keyDown j = if j = k then p else s.keyDown j := by
  simp only [State.keyDown, State.setKey_key, Vector.getElem_set]
  by_cases h : j = k
  · subst h; simp
  · have h2 : k.toNat ≠ j.toNat := fun e => h (BitVec.eq_of_toNat_eq e.symm)
    simp [h, h2]

/-- The lowest pressed key is pressed, and every lower key is not. -/
theorem State.lowestKey_some (s : State) (k : Nibble) (h : s.lowestKey = some k) :
    s.keyDown k = true ∧ ∀ j : Nibble, j.toNat < k.toNat → s.keyDown j = false := by
  have hlt : ∀ (j k : Nibble), j.toNat < k.toNat → keyNumbers.idxOf j < keyNumbers.idxOf k := by decide
  have hin : ∀ j : Nibble, j ∈ keyNumbers := by decide
  unfold State.lowestKey at h
  rw [List.find?_eq_some_iff_append] at h
  obtain ⟨hk, as, bs, hl, has⟩ := h
  refine ⟨hk, fun j hj => ?_⟩
  have hjlt := hlt j k hj
  have hjin := hin j
  by_contra hc
  have hjas : j ∉ as := fun hm => by
    have := has j hm
    simp_all
  have hkas : k ∉ as := fun hm => by
    have := has k hm
    simp_all
  rw [hl] at hjlt
  rw [List.idxOf_append_of_notMem hjas, List.idxOf_append_of_notMem hkas] at hjlt
  simp at hjlt

/-- No lowest key: no key is pressed. -/
theorem State.lowestKey_none (s : State) : s.lowestKey = none ↔ ∀ k : Nibble, s.keyDown k = false := by
  have hin : ∀ j : Nibble, j ∈ keyNumbers := by decide
  unfold State.lowestKey
  rw [List.find?_eq_none]
  constructor
  · intro h k
    simpa using h k (hin k)
  · intro h k _
    simp [h k]

/-! The turn. -/

@[simp] theorem State.reg_turn (s : State) (r : RegIdx) : s.turn.2.reg r = s.reg r := by
  simp only [State.reg, State.turn_v]
@[simp] theorem State.byteAt_turn (s : State) (k : Nat) : s.turn.2.byteAt k = s.byteAt k := by
  simp only [State.byteAt, State.turn_mem]
@[simp] theorem State.keyDown_turn (s : State) (k : Nibble) : s.turn.2.keyDown k = s.keyDown k := by
  simp only [State.keyDown, State.turn_key]

/-- The instruction at PC is the same before and after the turn is taken. -/
@[simp] theorem State.instrAtPc_turn (s : State) : s.turn.2.instrAtPc = s.instrAtPc := by
  simp only [State.instrAtPc, State.turn_pc, State.byteAt_turn]

/-! The scheduler's accounting. -/

/-- Counting a cycle: one more in the window, or, at the ninth, the tick (60_exceptions.md R322). -/
theorem State.countCycle_cases (s : State) :
    (s.cycles.val < 8 ∧ ∃ c : Fin 9, c.val = s.cycles.val + 1 ∧ s.countCycle = s.setCycles c) ∨
      (s.cycles.val = 8 ∧ s.countCycle = (s.setCycles 0).tick) := by
  by_cases h : s.cycles.val + 1 < 9
  · exact .inl ⟨by omega, ⟨s.cycles.val + 1, h⟩, rfl, by simp [State.countCycle, h]⟩
  · refine .inr ⟨by have := s.cycles.isLt; omega, ?_⟩
    simp [State.countCycle, h]

/-- Accounting changes the count, the timers and the signals only. -/
theorem State.account_cases (s : State) (o : StepOutcome) :
    s.account o = s ∨ (∃ c : Fin 9, s.account o = s.setCycles c) ∨ s.account o = (s.setCycles 0).tick := by
  cases o with
  | executed =>
    rcases s.countCycle_cases with ⟨-, c, -, h⟩ | ⟨-, h⟩
    · exact .inr (.inl ⟨c, h⟩)
    · exact .inr (.inr h)
  | blocked => exact .inl rfl
  | faulted c => exact .inl rfl

end Sys2Proof.Machine
end

