-- ==== Sys2Proof/Laws/PerInstr.lean ====
section
/-! SUPPORT. Statements for all instructions, one lemma per constructor: the top nibble of an instruction's word is the
one its row of the opcode table shows (30_encoding.md R101, R107). -/

namespace Sys2Proof.Laws.TopNibble

/-- The first digit of the pattern of each row (R107); UNKNOWN keeps its word's own. -/
def tableNibble : Instr → Nibble
  | .sys _ | .cls | .ret => 0x0#4
  | .jp _ => 0x1#4
  | .call _ => 0x2#4
  | .seByte _ _ => 0x3#4
  | .sneByte _ _ => 0x4#4
  | .seReg _ _ _ => 0x5#4
  | .ldByte _ _ => 0x6#4
  | .addByte _ _ => 0x7#4
  | .ldReg _ _ | .orReg _ _ | .andReg _ _ | .xorReg _ _ | .addReg _ _ | .sub _ _ | .shr _ _ | .subn _ _
  | .shl _ _ => 0x8#4
  | .sneReg _ _ _ => 0x9#4
  | .ldI _ => 0xA#4
  | .jpV0 _ => 0xB#4
  | .rnd _ _ => 0xC#4
  | .drw _ _ _ => 0xD#4
  | .skp _ | .sknp _ => 0xE#4
  | .ldVxDt _ | .ldVxK _ | .ldDtVx _ | .ldStVx _ | .addI _ | .ldF _ | .ldB _ | .ldMemVx _ | .ldVxMem _ => 0xF#4
  | .unknown w => topNibble w

/-- The word of an instruction has the top nibble of its row. -/
def Statement (i : Instr) : Prop := topNibble (encode i) = tableNibble i

theorem sys (nnn : Addr12) : Statement (.sys nnn) := topNibble_formatA _ _
theorem cls : Statement .cls := rfl
theorem ret : Statement .ret := rfl
theorem jp (nnn : Addr12) : Statement (.jp nnn) := topNibble_formatA _ _
theorem call (nnn : Addr12) : Statement (.call nnn) := topNibble_formatA _ _
theorem seByte (x : RegIdx) (kk : Byte) : Statement (.seByte x kk) := topNibble_formatXK _ _ _
theorem sneByte (x : RegIdx) (kk : Byte) : Statement (.sneByte x kk) := topNibble_formatXK _ _ _
theorem seReg (x y : RegIdx) (n : Nibble) : Statement (.seReg x y n) := topNibble_formatXYN _ _ _ _
theorem ldByte (x : RegIdx) (kk : Byte) : Statement (.ldByte x kk) := topNibble_formatXK _ _ _
theorem addByte (x : RegIdx) (kk : Byte) : Statement (.addByte x kk) := topNibble_formatXK _ _ _
theorem ldReg (x y : RegIdx) : Statement (.ldReg x y) := topNibble_formatXYN _ _ _ _
theorem orReg (x y : RegIdx) : Statement (.orReg x y) := topNibble_formatXYN _ _ _ _
theorem andReg (x y : RegIdx) : Statement (.andReg x y) := topNibble_formatXYN _ _ _ _
theorem xorReg (x y : RegIdx) : Statement (.xorReg x y) := topNibble_formatXYN _ _ _ _
theorem addReg (x y : RegIdx) : Statement (.addReg x y) := topNibble_formatXYN _ _ _ _
theorem sub (x y : RegIdx) : Statement (.sub x y) := topNibble_formatXYN _ _ _ _
theorem shr (x y : RegIdx) : Statement (.shr x y) := topNibble_formatXYN _ _ _ _
theorem subn (x y : RegIdx) : Statement (.subn x y) := topNibble_formatXYN _ _ _ _
theorem shl (x y : RegIdx) : Statement (.shl x y) := topNibble_formatXYN _ _ _ _
theorem sneReg (x y : RegIdx) (n : Nibble) : Statement (.sneReg x y n) := topNibble_formatXYN _ _ _ _
theorem ldI (nnn : Addr12) : Statement (.ldI nnn) := topNibble_formatA _ _
theorem jpV0 (nnn : Addr12) : Statement (.jpV0 nnn) := topNibble_formatA _ _
theorem rnd (x : RegIdx) (kk : Byte) : Statement (.rnd x kk) := topNibble_formatXK _ _ _
theorem drw (x y : RegIdx) (n : Nibble) : Statement (.drw x y n) := topNibble_formatXYN _ _ _ _
theorem skp (x : RegIdx) : Statement (.skp x) := topNibble_formatXK _ _ _
theorem sknp (x : RegIdx) : Statement (.sknp x) := topNibble_formatXK _ _ _
theorem ldVxDt (x : RegIdx) : Statement (.ldVxDt x) := topNibble_formatXK _ _ _
theorem ldVxK (x : RegIdx) : Statement (.ldVxK x) := topNibble_formatXK _ _ _
theorem ldDtVx (x : RegIdx) : Statement (.ldDtVx x) := topNibble_formatXK _ _ _
theorem ldStVx (x : RegIdx) : Statement (.ldStVx x) := topNibble_formatXK _ _ _
theorem addI (x : RegIdx) : Statement (.addI x) := topNibble_formatXK _ _ _
theorem ldF (x : RegIdx) : Statement (.ldF x) := topNibble_formatXK _ _ _
theorem ldB (x : RegIdx) : Statement (.ldB x) := topNibble_formatXK _ _ _
theorem ldMemVx (x : RegIdx) : Statement (.ldMemVx x) := topNibble_formatXK _ _ _
theorem ldVxMem (x : RegIdx) : Statement (.ldVxMem x) := topNibble_formatXK _ _ _
theorem unknown (w : Word) : Statement (.unknown w) := rfl

end Sys2Proof.Laws.TopNibble
end

