-- ==== Sys2Proof/Tests/Slice0.lean ====
section
/-! SUPPORT. Tests on fixed values, taken from the tables of 95_test_vectors.md (the id of the vector stands beside each) or
written out from the spec's encodings, and a witness for the hypotheses of each statement. -/

namespace Sys2Proof.Tests

open Sys2Proof Sys2Proof.Machine

/-! ## Well-formedness: each check refuses an ill-formed term -/

theorem test_wf_sys_of_cls_word : WellFormed (.sys 0x0E0#12) = false := by decide
theorem test_wf_sys_of_ret_word : WellFormed (.sys 0x0EE#12) = false := by decide
theorem test_wf_unknown_of_class_8 : WellFormed (.unknown 0x8127#16) = false ∧ WellFormed (.unknown 0x812E#16) = false := by
  decide
theorem test_wf_unknown_of_class_E : WellFormed (.unknown 0xE49E#16) = false ∧ WellFormed (.unknown 0xE4A1#16) = false := by
  decide
theorem test_wf_unknown_of_class_F : WellFormed (.unknown 0xF533#16) = false ∧ WellFormed (.unknown 0xF507#16) = false := by
  decide
theorem test_wf_unknown_of_full_class : WellFormed (.unknown 0x6005#16) = false ∧ WellFormed (.unknown 0x0000#16) = false := by
  decide
theorem test_wf_accepts : WellFormed (.sys 0x0E1#12) = true ∧ WellFormed (.unknown 0x8008#16) = true ∧
    WellFormed (.drw 0#4 0#4 0#4) = true := by decide

/-! ## Decoding: one word of each row, written out from its pattern, with fields that differ -/

theorem test_decode_0_to_2 : decode 0b0000_0001_0010_0011#16 = .sys 0x123#12 ∧ decode 0b0000_0000_1110_0000#16 = .cls ∧
    decode 0b0000_0000_1110_1110#16 = .ret ∧ decode 0b0001_1010_1011_1100#16 = .jp 0xABC#12 ∧
    decode 0b0010_0011_0100_0101#16 = .call 0x345#12 := by decide
theorem test_decode_3_to_7 : decode 0b0011_0001_0100_0010#16 = .seByte 0x1#4 0x42#8 ∧
    decode 0b0100_0010_0100_0011#16 = .sneByte 0x2#4 0x43#8 ∧ decode 0b0101_0001_0010_0000#16 = .seReg 0x1#4 0x2#4 0x0#4 ∧
    decode 0b0110_1010_0111_1111#16 = .ldByte 0xA#4 0x7F#8 ∧ decode 0b0111_1111_0000_0001#16 = .addByte 0xF#4 0x01#8 := by
  decide
theorem test_decode_8_loads_logic : decode 0b1000_0001_0010_0000#16 = .ldReg 0x1#4 0x2#4 ∧
    decode 0b1000_0001_0010_0001#16 = .orReg 0x1#4 0x2#4 ∧ decode 0b1000_0001_0010_0010#16 = .andReg 0x1#4 0x2#4 ∧
    decode 0b1000_0001_0010_0011#16 = .xorReg 0x1#4 0x2#4 := by decide
theorem test_decode_8_arithmetic : decode 0b1000_0011_0100_0100#16 = .addReg 0x3#4 0x4#4 ∧
    decode 0b1000_0011_0100_0101#16 = .sub 0x3#4 0x4#4 ∧ decode 0b1000_0011_0100_0110#16 = .shr 0x3#4 0x4#4 ∧
    decode 0b1000_0011_0100_0111#16 = .subn 0x3#4 0x4#4 ∧ decode 0b1000_0011_0100_1110#16 = .shl 0x3#4 0x4#4 := by decide
theorem test_decode_9_to_D : decode 0b1001_0001_0010_0000#16 = .sneReg 0x1#4 0x2#4 0x0#4 ∧
    decode 0b1010_0001_0010_0011#16 = .ldI 0x123#12 ∧ decode 0b1011_0011_0000_0001#16 = .jpV0 0x301#12 ∧
    decode 0b1100_0011_0000_1111#16 = .rnd 0x3#4 0x0F#8 ∧ decode 0b1101_0001_0010_0101#16 = .drw 0x1#4 0x2#4 0x5#4 := by
  decide
theorem test_decode_E : decode 0b1110_0100_1001_1110#16 = .skp 0x4#4 ∧ decode 0b1110_0100_1010_0001#16 = .sknp 0x4#4 ∧
    decode 0b1110_0100_1010_0000#16 = .unknown 0xE4A0#16 := by decide
theorem test_decode_F_timers : decode 0b1111_0011_0000_0111#16 = .ldVxDt 0x3#4 ∧
    decode 0b1111_0101_0000_1010#16 = .ldVxK 0x5#4 ∧ decode 0b1111_0011_0001_0101#16 = .ldDtVx 0x3#4 ∧
    decode 0b1111_0011_0001_1000#16 = .ldStVx 0x3#4 := by decide
theorem test_decode_F_memory : decode 0b1111_0010_0001_1110#16 = .addI 0x2#4 ∧
    decode 0b1111_1010_0010_1001#16 = .ldF 0xA#4 ∧ decode 0b1111_0101_0011_0011#16 = .ldB 0x5#4 ∧
    decode 0b1111_0001_0101_0101#16 = .ldMemVx 0x1#4 ∧ decode 0b1111_0100_0110_0101#16 = .ldVxMem 0x4#4 := by decide
/-- E1 to E4, E7 to E10. -/
theorem test_decode_vectors : decode 0x00E0#16 = .cls ∧ decode 0x00EE#16 = .ret ∧ decode 0x0000#16 = .sys 0x000#12 ∧
    decode 0x00E1#16 = .sys 0x0E1#12 ∧ decode 0x8008#16 = .unknown 0x8008#16 ∧ decode 0x800F#16 = .unknown 0x800F#16 ∧
    decode 0xE000#16 = .unknown 0xE000#16 ∧ decode 0xF0FF#16 = .unknown 0xF0FF#16 := by decide
/-- The word of W8 as bytes in memory order. -/
theorem test_decode_table_word : decodeTableWord 16 0x6005 = some (.ldByte 0x0#4 0x05#8) ∧
    decodeBytes 0x60#8 0x05#8 = .ldByte 0x0#4 0x05#8 := by decide
/-- The source's assembly examples (30_encoding.md R113), with hexadecimal values (R115). -/
theorem test_disassemble : disassemble 0x6005#16 = "LD V0, 0x05" ∧ disassemble 0x2300#16 = "CALL 0x300" ∧
    disassemble 0xD125#16 = "DRW V1, V2, 0x5" ∧ disassemble 0x8008#16 = "DW 0x8008" := by decide

/-! ## One step on a small state -/

/-- The reset state with one register set. -/
def reg1 (x : RegIdx) (b : Byte) : State := State.reset.setReg x b

/-- The reset state with two registers set. -/
def reg2 (x : RegIdx) (b : Byte) (y : RegIdx) (c : Byte) : State := (reg1 x b).setReg y c

/-- The state after one debugger step with the word at PC; the state itself if the step stopped. -/
def after (w : Nat) (s : State) : State :=
  match step ((s.placeWord (BitVec.ofNat 16 w)).setAgenda [.step]) with
  | .next t => t
  | .fault _ => s
  | .refused _ => s

/-- The reset state with a stack pointer. -/
def atSp (sp : Fin 17) : State := { State.reset with sp := sp }

/-- The reset state with 0x204 in the deepest slot and SP = 15. -/
def oneCallDeep : State := { State.reset with sp := 15, stack := State.reset.stack.set 15 0x204#16 }

/-- The reset state with one key pressed. -/
def holding (k : Nibble) : State := State.reset.setKey k true

/-- T1 -/
theorem test_sys : (after 0x0123 .reset).pc = 0x202#16 ∧ (after 0x0123 .reset).cycles.val = 1 := by decide
/-- T2 -/
theorem test_cls :
    let s := after 0x00E0 (State.reset.setPix ((State.reset.pix.toggle 0 0).toggle 63 31))
    s.pixel 0 0 = false ∧ s.pixel 63 31 = false ∧ s.pc = 0x202#16 := by decide
/-- T3 -/
theorem test_ret : (after 0x00EE oneCallDeep).pc = 0x204#16 ∧ (after 0x00EE oneCallDeep).sp.val = 16 ∧
    (after 0x00EE oneCallDeep).stack[15] = 0x204#16 := by decide
/-- T4 -/
theorem test_ret_underflow :
    let s := after 0x00EE .reset
    s.fault = some ⟨.stackUnderflow, 0x200#16⟩ ∧ s.stopReason = some .faulted ∧ s.pc = 0x200#16 ∧ s.sp.val = 16 ∧
      s.cycles.val = 0 := by decide
/-- T5 -/
theorem test_jp : (after 0x1ABC .reset).pc = 0xABC#16 := by decide
/-- T6 -/
theorem test_call :
    let s := after 0x2300 .reset
    s.sp.val = 15 ∧ s.stack[15] = 0x202#16 ∧ s.pc = 0x300#16 := by decide
/-- T7 -/
theorem test_call_overflow :
    let s := after 0x2300 (atSp 0)
    s.fault = some ⟨.stackOverflow, 0x200#16⟩ ∧ s.pc = 0x200#16 ∧ s.sp.val = 0 ∧ s.stack[15] = 0#16 := by decide
/-- T8 and T9 -/
theorem test_se_byte : (after 0x3342 (reg1 3 0x42)).pc = 0x204#16 ∧ (after 0x3342 (reg1 3 0x41)).pc = 0x202#16 := by decide
/-- T10 -/
theorem test_sne_byte : (after 0x4342 (reg1 3 0x41)).pc = 0x204#16 ∧ (after 0x4342 (reg1 3 0x42)).pc = 0x202#16 := by decide
/-- T11 and T12 -/
theorem test_se_reg : (after 0x5120 (reg2 1 7 2 7)).pc = 0x204#16 ∧ (after 0x5121 (reg2 1 7 2 7)).pc = 0x204#16 := by decide
/-- T13 -/
theorem test_sne_reg : (after 0x9120 (reg2 1 7 2 8)).pc = 0x204#16 ∧ (after 0x9120 (reg2 1 7 2 7)).pc = 0x202#16 := by decide
/-- T14 and T15 -/
theorem test_jp_v0 : (after 0xBFFF (reg1 0 0xFF)).pc = 0x10FE#16 ∧ (after 0xB301 (reg1 0 0x01)).pc = 0x302#16 := by decide
/-- T16 -/
theorem test_skip_past_the_end : (after 0x3000 (State.reset.setPc 0xFFE#16)).pc = 0x1002#16 := by decide
/-- T20 and T21 -/
theorem test_fetch_odd_and_wrapping : (after 0x1300 (State.reset.setPc 0x201#16)).pc = 0x300#16 ∧
    (after 0x12F0 (State.reset.setPc 0xFFF#16)).pc = 0x2F0#16 := by decide
/-- T17 to T19 -/
theorem test_unknown : (after 0x8008 .reset).pc = 0x202#16 ∧ (after 0xE000 .reset).pc = 0x202#16 ∧
    (after 0xF0FF .reset).pc = 0x202#16 := by decide
/-- T22 -/
theorem test_pc_wraps : (after 0x0000 (State.reset.setPc 0xFFFE#16)).pc = 0x0000#16 := by decide

/-- A1 -/
theorem test_ld_byte : (after 0x6A7F .reset).reg 0xA = 0x7F#8 ∧ (after 0x6A7F .reset).pc = 0x202#16 := by decide
/-- A3 and A4 -/
theorem test_add_byte : (after 0x7080 (reg1 0 0x80)).reg 0 = 0#8 ∧ (after 0x7080 (reg1 0 0x80)).reg 0xF = 1#8 ∧
    (after 0x7000 (reg1 0 0xFF)).reg 0 = 0xFF#8 ∧ (after 0x7000 (reg2 0 0xFF 0xF 9)).reg 0xF = 0#8 := by decide
/-- A5 -/
theorem test_add_byte_to_vf : (after 0x7F01 (reg1 0xF 0xFF)).reg 0xF = 1#8 := by decide
/-- A6 -/
theorem test_ld_reg : (after 0x8120 (reg2 1 0x0F 2 0xF0)).reg 1 = 0xF0#8 ∧ (after 0x8120 (reg2 1 0x0F 2 0xF0)).reg 2 = 0xF0#8 := by
  decide
/-- A7 -/
theorem test_or : (after 0x8121 ((reg2 1 0x0F 2 0xF0).setReg 0xF 5)).reg 1 = 0xFF#8 ∧
    (after 0x8121 ((reg2 1 0x0F 2 0xF0).setReg 0xF 5)).reg 0xF = 5#8 := by decide
/-- A8 -/
theorem test_and : (after 0x8122 (reg2 1 0x3C 2 0x0F)).reg 1 = 0x0C#8 := by decide
/-- A9 -/
theorem test_xor : (after 0x8123 (reg2 1 0x3C 2 0x0F)).reg 1 = 0x33#8 := by decide
/-- A10 and A11 -/
theorem test_add_reg : (after 0x8124 (reg2 1 0x80 2 0x80)).reg 1 = 0#8 ∧ (after 0x8124 (reg2 1 0x80 2 0x80)).reg 0xF = 1#8 ∧
    (after 0x8124 (reg2 1 0xFF 2 0x00)).reg 1 = 0xFF#8 ∧ (after 0x8124 (reg2 1 0xFF 2 0x00)).reg 0xF = 0#8 := by decide
/-- A13 -/
theorem test_add_reg_to_vf : (after 0x8F14 (reg2 0xF 0xFF 1 0x01)).reg 0xF = 1#8 := by decide
/-- A14 and A15 -/
theorem test_sub : (after 0x8125 (reg2 1 5 2 5)).reg 1 = 0#8 ∧ (after 0x8125 (reg2 1 5 2 5)).reg 0xF = 1#8 ∧
    (after 0x8125 (reg2 1 3 2 5)).reg 1 = 0xFE#8 ∧ (after 0x8125 ((reg2 1 3 2 5).setReg 0xF 7)).reg 0xF = 0#8 := by decide
/-- A17 -/
theorem test_sub_from_vf : (after 0x8F15 (reg2 0xF 3 1 5)).reg 0xF = 0#8 := by decide
/-- A18 and A19 -/
theorem test_subn : (after 0x8127 (reg2 1 3 2 5)).reg 1 = 2#8 ∧ (after 0x8127 (reg2 1 3 2 5)).reg 0xF = 1#8 ∧
    (after 0x8127 (reg2 1 5 2 3)).reg 1 = 0xFE#8 ∧ (after 0x8127 (reg2 1 5 2 3)).reg 0xF = 0#8 := by decide
/-- A20 and A21 -/
theorem test_shr : (after 0x8106 (reg1 1 0x03)).reg 1 = 1#8 ∧ (after 0x8106 (reg1 1 0x03)).reg 0xF = 1#8 ∧
    (after 0x8126 (reg2 1 0x02 2 0xFF)).reg 1 = 1#8 ∧ (after 0x8126 (reg2 1 0x02 2 0xFF)).reg 0xF = 0#8 := by decide
/-- A22 -/
theorem test_shr_vf : (after 0x8F06 (reg1 0xF 0x06)).reg 0xF = 3#8 := by decide
/-- A23 -/
theorem test_shl : (after 0x810E (reg1 1 0x81)).reg 1 = 2#8 ∧ (after 0x810E (reg1 1 0x81)).reg 0xF = 1#8 := by decide
/-- A25 -/
theorem test_shl_vf : (after 0x8F0E (reg1 0xF 0x81)).reg 0xF = 2#8 := by decide
/-- A27: for every byte that could be drawn -/
theorem test_rnd_mask_0 : (after 0xC300 .reset).reg 3 = 0#8 := by
  have h : (after 0xC300 .reset).reg 3 = Config.randomByte 0 &&& 0#8 := rfl
  rw [h, BitVec.and_zero]
/-- A28: the byte drawn -/
theorem test_rnd_mask_ff : (after 0xC3FF .reset).reg 3 = Config.randomByte 0 &&& 0xFF#8 := rfl

/-- M1 -/
theorem test_ld_i : (after 0xA123 .reset).i = 0x123#16 := by decide
/-- M3 -/
theorem test_add_i : (after 0xF21E ((reg2 2 1 0xF 7).setIndex 0xFFFF#16)).i = 0#16 ∧
    (after 0xF21E ((reg2 2 1 0xF 7).setIndex 0xFFFF#16)).reg 0xF = 7#8 := by decide
/-- M5 and M6 -/
theorem test_ld_f : (after 0xF029 (reg1 0 7)).i = 0x023#16 ∧ (after 0xF029 (reg1 0 0x1A)).i = 0x032#16 := by decide
/-- M7 -/
theorem test_ld_b :
    let s := after 0xF533 ((reg1 5 0xFF).setIndex 0x300#16)
    s.byteAt 0x300 = 2#8 ∧ s.byteAt 0x301 = 5#8 ∧ s.byteAt 0x302 = 5#8 ∧ s.i = 0x300#16 := by decide
/-- M13 -/
theorem test_ld_b_wraps :
    let s := after 0xF533 ((reg1 5 123).setIndex 0xFFE#16)
    s.byteAt 0xFFE = 1#8 ∧ s.byteAt 0xFFF = 2#8 ∧ s.byteAt 0x000 = 3#8 ∧ s.byteAt 0x001 = 0x90#8 := by decide
/-- M9 -/
theorem test_store_one :
    let s := after 0xF055 ((reg2 0 0xAA 1 0xBB).setIndex 0x300#16)
    s.byteAt 0x300 = 0xAA#8 ∧ s.byteAt 0x301 = 0#8 := by decide
/-- M14 -/
theorem test_store_wraps :
    let s := after 0xF155 ((reg2 0 1 1 2).setIndex 0xFFF#16)
    s.byteAt 0xFFF = 1#8 ∧ s.byteAt 0x000 = 2#8 ∧ Memory.wf s.mem = true := by decide
/-- M11 -/
theorem test_load_one :
    let s := after 0xF065 (((State.reset.setIndex 0x300#16).store 0x300 0x11).store 0x301 0x22)
    s.reg 0 = 0x11#8 ∧ s.reg 1 = 0#8 := by decide
/-- M15 -/
theorem test_load_glyph :
    let s := after 0xF465 .reset
    s.reg 0 = 0xF0#8 ∧ s.reg 1 = 0x90#8 ∧ s.reg 4 = 0xF0#8 ∧ s.reg 5 = 0#8 := by decide

/-- D2 -/
theorem test_drw_collision :
    let s := after 0xD011 (State.reset.setPix (State.reset.pix.toggle 0 0))
    s.pixel 0 0 = false ∧ s.pixel 1 0 = true ∧ s.pixel 3 0 = true ∧ s.pixel 4 0 = false ∧ s.reg 0xF = 1#8 := by decide
/-- D3 and D6: clipping on the right, and the column read from VF before VF is cleared -/
theorem test_drw_clips_and_reads_vf_first :
    let s := after 0xD011 (((reg1 0 60).setIndex 0x300#16).store 0x300 0xFF)
    let t := after 0xDF01 (((reg1 0xF 3).setIndex 0x300#16).store 0x300 0x80)
    s.pixel 60 0 = true ∧ s.pixel 63 0 = true ∧ s.pixel 0 0 = false ∧ s.pixel 0 1 = false ∧ s.reg 0xF = 0#8 ∧
      t.pixel 3 0 = true ∧ t.pixel 0 0 = false ∧ t.reg 0xF = 0#8 := by decide

/-- K1 -/
theorem test_ld_vx_dt : (after 0xF307 (State.reset.setDelay 0x3C)).reg 3 = 0x3C#8 := by decide
/-- K2 -/
theorem test_ld_dt : (after 0xF315 (reg1 3 0x20)).dt = 0x20#8 ∧ (after 0xF315 (reg1 3 0x20)).st = 0#8 := by decide
/-- K3 -/
theorem test_ld_st : (after 0xF318 (reg1 3 0x20)).st = 0x20#8 ∧ (after 0xF318 (reg1 3 0x20)).dt = 0#8 := by decide
/-- K5 and K6 -/
theorem test_skp : (after 0xE49E (reg1 4 0x0A)).pc = 0x202#16 ∧
    (after 0xE49E ((holding 0xA).setReg 4 0x1A)).pc = 0x204#16 := by decide
/-- K7 and K8 -/
theorem test_sknp : (after 0xE4A1 (reg1 4 0x0A)).pc = 0x204#16 ∧
    (after 0xE4A1 ((holding 0xA).setReg 4 0x0A)).pc = 0x202#16 := by decide
/-- K9 -/
theorem test_wait_blocked : (after 0xF50A .reset).pc = 0x200#16 ∧ (after 0xF50A .reset).cycles.val = 0 ∧
    (after 0xF50A .reset).reg 5 = 0#8 := by decide
/-- K10 -/
theorem test_wait_lowest : (after 0xF50A ((holding 9).setKey 3 true)).reg 5 = 3#8 ∧
    (after 0xF50A ((holding 9).setKey 3 true)).pc = 0x202#16 := by decide

/-! ## The scheduler and the commands -/

/-- The state after one step of the machine; the state itself if the step stopped. -/
def stepped (s : State) : State :=
  match step s with
  | .next t => t
  | .fault _ => s
  | .refused _ => s

/-- The reset state Running, with the tick loop as the only agent. -/
def runningReset : State := (State.reset.setSchedule .tickLoop).start

/-- The reset state Running at the ninth cycle of its window, DT = 4 and ST = 1. -/
def ninth : State := { runningReset with cycles := 8, dt := 4, st := 1 }

/-- S1: the ninth Executed step ticks -/
theorem test_ninth_step_ticks : (stepped ninth).dt = 3#8 ∧ (stepped ninth).st = 0#8 ∧ (stepped ninth).cycles.val = 0 ∧
    (stepped ninth).displaySignal = true ∧ (stepped ninth).audioSignal = true := by decide
/-- S2: a breakpoint at PC stops the run before the instruction -/
theorem test_breakpoint_stops :
    let s := stepped (runningReset.setBreakpoints [0x200#16])
    s.running = false ∧ s.stopReason = some (.breakpoint 0x200#16) ∧ s.pc = 0x200#16 ∧ s.cycles.val = 0 := by decide
/-- S6: the stop request wins over the breakpoint -/
theorem test_stop_request_wins :
    let s := stepped ((runningReset.setBreakpoints [0x200#16]).setStopRequest true)
    s.running = false ∧ s.stopReason = some .stopRequested ∧ s.stopRequest = false := by decide
/-- S7 and S9 -/
theorem test_refused_commands : (stepped ((after 0x00EE .reset).setAgenda [.run])).report = some .engineFaulted ∧
    (stepped (runningReset.setAgenda [.loadProgram (.bytes [1])])).report = some .loadWhileRunning := by decide
/-- S8 and B7 -/
theorem test_load_recovers :
    let s := stepped (((after 0x00EE .reset).setBreakpoints [0x200#16]).setAgenda [.loadProgram (.bytes [0x60, 0x05])])
    s.fault = none ∧ s.stopReason = none ∧ s.byteAt 0x200 = 0x60#8 ∧ s.byteAt 0x201 = 0x05#8 ∧
      s.breakpoints = [0x200#16] ∧ s.report = some .done := by decide
/-- B2 and B3 -/
theorem test_delete_breakpoint :
    let s := State.reset.setBreakpoints [0x200#16, 0x210#16, 0x220#16]
    (s.deleteBreakpoint 2).1.breakpoints = [0x200#16, 0x220#16] ∧
      s.listBreakpoints.2 = .breakpointList [(1, 0x200#16), (2, 0x210#16), (3, 0x220#16)] := by decide
/-- B4 and B5 -/
theorem test_delete_breakpoint_fails :
    let s := State.reset.setBreakpoints [0x200#16, 0x210#16, 0x220#16]
    (s.deleteBreakpoint 0).2 = .invalidId ∧ (s.deleteBreakpoint 4).2 = .invalidId ∧
      (s.deleteBreakpoint 4).1.breakpoints = [0x200#16, 0x210#16, 0x220#16] := by decide
/-- The turn of the power-on state is the first free action (R331) -/
theorem test_free_turn : State.reset.turn = (Config.freeAction 0, State.reset.setSchedule (.free 1)) := rfl
/-- The host's two questions, on the word of W8 -/
theorem test_with_fetch_word : (stepped (State.reset.withFetchWord 16 0x6005)).reg 0 = 5#8 ∧
    (stepped (State.reset.withFetchWord 16 0x6005)).pc = 0x202#16 := by decide

/-! ## Witnesses: a concrete state and operands that meet the hypotheses of a statement, for each clause -/

/-- The word of an instruction at PC of a Running engine with nothing before it. -/
def runningAt (w : Word) : State := runningReset.placeWord w

/-- The reset state faulted by a RET on the empty stack. -/
def faulted : State := State.reset.takeFault .stackUnderflow

/-- The states that a witness uses meet the invariant. -/
theorem witness_inv_runningReset : Inv runningReset :=
  ⟨by decide, fun _ => rfl, fun h => absurd h (by decide), fun f h => absurd h (by simp [runningReset, State.reset]),
    fun h => absurd h (by decide)⟩

theorem witness_inv_faulted : Inv faulted :=
  ⟨by decide, fun h => absurd h (by decide), fun h => absurd h (by decide),
    fun f h => by
      have hf : f = ⟨.stackUnderflow, 0x200#16⟩ := (Option.some.inj h).symm
      subst hf
      exact ⟨rfl, rfl, rfl⟩,
    fun _ => rfl⟩

theorem witness_DecodeOfEncode : WellFormed (.sys 0xFFF#12) = true ∧ WellFormed (.unknown 0xFFFF#16) = true ∧
    WellFormed (.drw 0xF#4 0xF#4 0xF#4) = true := by decide

theorem witness_UnknownWords : decode 0x8008#16 = .unknown 0x8008#16 ∧ decode 0x0FFF#16 = .sys 0xFFF#12 := by decide

theorem witness_StepRuns_tick_loop : (runningAt 0x6005#16).running = true ∧ (runningAt 0x6005#16).stopRequest = false ∧
    (runningAt 0x6005#16).pc ∉ (runningAt 0x6005#16).breakpoints ∧
    (runningAt 0x6005#16).turn = (.iteration, runningAt 0x6005#16) ∧
    ((runningAt 0x6005#16).byteAt ((runningAt 0x6005#16).pc.toNat % 0x1000) ++
      (runningAt 0x6005#16).byteAt (((runningAt 0x6005#16).pc.toNat + 1) % 0x1000) : BitVec 16) = 0x6005#16 := by decide

/-- The fetch that wraps, with the iteration on the agenda. -/
theorem witness_StepRuns_iteration :
    let s := ((runningReset.setPc 0xFFFF#16).placeWord 0x6005#16).setAgenda [.iteration, .stop]
    s.running = true ∧ s.stopRequest = false ∧ s.pc ∉ s.breakpoints ∧ s.turn = (.iteration, s.setAgenda [.stop]) ∧
      (s.byteAt (s.pc.toNat % 0x1000) ++ s.byteAt ((s.pc.toNat + 1) % 0x1000) : BitVec 16) = 0x6005#16 := by decide

theorem witness_DebuggerStep_stopped : (State.reset.setAgenda [.step]).turn = (.step, State.reset) ∧
    (State.reset.setAgenda [.step]).fault = none ∧ (State.reset.setAgenda [.step]).running = false := by decide
theorem witness_DebuggerStep_faulted : (faulted.setAgenda [.step]).turn = (.step, faulted) ∧
    (faulted.setAgenda [.step]).fault ≠ none := by decide
theorem witness_DebuggerStep_running : (runningReset.setAgenda [.step]).turn = (.step, runningReset) ∧
    (runningReset.setAgenda [.step]).fault = none ∧ (runningReset.setAgenda [.step]).running = true := by decide

theorem witness_NineExecutedSteps : State.reset.cycles.val < 8 ∧ (State.reset.setCycles 7).cycles.val < 8 ∧
    (State.reset.setCycles 8).cycles.val = 8 := by decide

theorem witness_BlockedKeyWait_no_key : Executes (runningAt 0xF50A#16) (.ldVxK 5#4) ∧
    ∀ k, (runningAt 0xF50A#16).keyDown k = false := by
  unfold Executes
  decide
/-- The debugger's attempt. -/
theorem witness_BlockedKeyWait_debugger :
    Executes ((State.reset.placeWord 0xF50A#16).setAgenda [.step]) (.ldVxK 5#4) ∧
    ∀ k, ((State.reset.placeWord 0xF50A#16).setAgenda [.step]).keyDown k = false := by
  unfold Executes
  decide
theorem witness_BlockedKeyWait_key :
    let s := ((runningAt 0xFF0A#16).setKey 0xF#4 true).setAgenda [.iteration, .stop]
    Executes s (.ldVxK 0xF#4) ∧ s.keyDown 0xF#4 = true ∧ s.cycles.val < 8 := by
  unfold Executes
  decide
theorem witness_BlockedKeyWait_ninth :
    let s := ((runningAt 0xFF0A#16).setKey 0x0#4 true).setCycles 8
    Executes s (.ldVxK 0xF#4) ∧ s.keyDown 0x0#4 = true ∧ s.cycles.val = 8 := by
  unfold Executes
  decide

theorem witness_Timers_writers : exec (.ldDtVx 3#4) (reg1 3 7) = .next ((reg1 3 7).setDelay 7).advance ∧
    exec (.ldStVx 3#4) (reg1 3 7) = .next ((reg1 3 7).setSound 7).advance := ⟨rfl, rfl⟩
/-- LD DT, V3 as the ninth of its window, and a load. -/
theorem witness_Timers_step : Executes ((runningAt 0xF315#16).setCycles 8) (.ldDtVx 3#4) ∧
    ((runningAt 0xF315#16).setCycles 8).cycles.val = 8 ∧ (∃ t, step ((runningAt 0xF315#16).setCycles 8) = .next t) ∧
    Loads (State.reset.setAgenda [.loadProgram (.bytes [])]) :=
  ⟨by unfold Executes; decide, rfl, ⟨_, rfl⟩, rfl, [], rfl, by decide⟩
theorem witness_Timers_audio : ninth.tick.audioSignal = true := by decide

theorem witness_NothingElseFaults : (atSp 1).sp.val ≠ 0 ∧ State.reset.sp.val ≠ 0 ∧ (atSp 15).sp.val ≠ 16 ∧
    ¬ ((∃ nnn, Instr.cls = .call nnn) ∧ State.reset.sp.val = 0) ∧ ¬ (Instr.cls = .ret ∧ State.reset.sp.val = 16) :=
  ⟨by decide, by decide, by decide, (fun ⟨⟨_, hc⟩, _⟩ => by cases hc), (fun h => by cases h.1)⟩

theorem witness_StackFaults : (atSp 0).sp.val = 0 ∧ State.reset.sp.val = 16 := by decide

theorem witness_StepOutcome_each : stepOutcome (.ldVxK 0#4) State.reset = .blocked ∧
    stepOutcome (.call 0#12) (atSp 0) = .faulted .stackOverflow ∧ stepOutcome .ret State.reset = .faulted .stackUnderflow ∧
    stepOutcome .cls State.reset = .executed ∧ stepOutcome (.ldVxK 0#4) (holding 0) = .executed := by decide

theorem witness_StepOutcome_exec : exec (.ldVxK 0#4) State.reset = .next State.reset ∧
    exec .ret State.reset = .next faulted ∧ exec .cls State.reset = .next (State.reset.setPix Pixmap.clear).advance :=
  ⟨rfl, rfl, rfl⟩

theorem witness_FaultIsCleared_kept : Inv (faulted.setAgenda [.run]) ∧
    (faulted.setAgenda [.run]).fault = some ⟨.stackUnderflow, 0x200#16⟩ ∧
    step (faulted.setAgenda [.run]) = .next (faulted.setReport .engineFaulted) :=
  ⟨⟨witness_inv_faulted.1, witness_inv_faulted.2, witness_inv_faulted.3, witness_inv_faulted.4, witness_inv_faulted.5⟩,
    rfl, rfl⟩
theorem witness_FaultIsCleared_by_load :
    let s := faulted.setAgenda [.loadProgram (.bytes [])]
    Inv s ∧ s.fault = some ⟨.stackUnderflow, 0x200#16⟩ ∧
      step s = .next ((faulted.loadImage []).setReport .done) :=
  ⟨⟨witness_inv_faulted.1, witness_inv_faulted.2, witness_inv_faulted.3, witness_inv_faulted.4, witness_inv_faulted.5⟩,
    rfl, rfl⟩

theorem witness_EveryStepKeepsTheInvariant : Inv runningReset ∧ step runningReset = .next runningReset.advance.countCycle :=
  ⟨witness_inv_runningReset, rfl⟩

theorem witness_ProgramLoad : State.reset.running = false ∧ (List.replicate 0xE00 (0#8 : Byte)).length ≤ 0xE00 ∧
    0xE00 < (List.replicate 0xE01 (0#8 : Byte)).length ∧ runningReset.running = true :=
  ⟨rfl, List.length_replicate.le, by rw [List.length_replicate]; decide, rfl⟩

theorem witness_Sys : (0x0E1#12 : Addr12) ≠ 0x0E0#12 ∧ (0x0E1#12 : Addr12) ≠ 0x0EE#12 := by decide
theorem witness_Call : (atSp 1).sp.val ≠ 0 ∧ State.reset.sp.val ≠ 0 := by decide
theorem witness_Ret : (atSp 0).sp.val = (0 : Fin 16).val ∧ (atSp 15).sp.val = (15 : Fin 16).val := by decide
theorem witness_SkipsOnAKey : ((reg1 4 0x1A).reg 4).toNat % 16 = (0xA#4).toNat ∧
    ((reg1 4 0xF0).reg 4).toNat % 16 = (0x0#4).toNat ∧ ((reg1 4 0xFF).reg 4).toNat % 16 = (0xF#4).toNat := by decide
theorem witness_ExactLaws : (0xE#4 : RegIdx) ≠ 0xF#4 ∧ (reg2 1 5 2 5).reg 1 = (reg2 1 5 2 5).reg 2 := by decide

/-- The state from which the load of the stored registers is made: every register but the stored bytes' is cleared. -/
def cleared (s : State) : State := { s with v := Vector.replicate 16 0 }

theorem witness_StoreRegisters_last : (0xF#4 : RegIdx).toNat ≤ (0xF#4 : RegIdx).toNat ∧
    ∀ k : RegIdx, k.toNat ≤ (0xF#4 : RegIdx).toNat → 0x10 ≠ ea State.reset.i k.toNat := by decide
theorem witness_LoadUndoesStore :
    let s := (reg2 0 1 0xF 2).setIndex 0xFF8#16
    let t := (s.storeRegs 16).advance
    exec (.ldMemVx 0xF#4) s = .next t ∧ SameMem t (cleared t) ∧ (cleared t).i = t.i := ⟨rfl, fun _ => rfl, rfl⟩
theorem witness_StoredCode :
    let s := (reg2 0 0x60 1 0x05).setIndex 0x202#16
    let t := (s.storeRegs 2).advance
    (0#4 : RegIdx).toNat + 1 ≤ (1#4 : RegIdx).toNat ∧ exec (.ldMemVx 1#4) s = .next t ∧
      t.pc.toNat % 0x1000 = ea s.i (0#4 : RegIdx).toNat := ⟨by decide, rfl, by decide⟩

/-- Glyph 0 at the origin: its first pixel is covered, the one after its row is not. -/
theorem witness_Draw_covered : SpriteBit State.reset 0#4 1#4 5#4 0 0 ∧ ¬ SpriteBit State.reset 0#4 1#4 5#4 4 0 := by
  unfold SpriteBit
  decide
theorem witness_Draw_collision :
    let s := (reg2 0 60 1 31).setPix (State.reset.pix.toggle 63 31)
    SpriteBit s 0#4 1#4 5#4 63 31 ∧ s.pixel 63 31 = true ∧ s.pixel 60 31 = false := by
  unfold SpriteBit
  decide
/-- A column past the grid: no pixel is covered, so there is no collision. -/
theorem witness_Draw_no_collision :
    ¬ ∃ px py, px < 64 ∧ py < 32 ∧ SpriteBit (reg1 0 64) 0#4 1#4 5#4 px py ∧ (reg1 0 64).pixel px py = true := by
  rintro ⟨px, py, hx, _, ⟨h, _⟩, _⟩
  have h64 : ((reg1 0 64).reg 0#4).toNat = 64 := by decide
  omega
theorem witness_DrawTwice_clear_pixel : (0#4 : RegIdx) ≠ 0xF#4 ∧ (1#4 : RegIdx) ≠ 0xF#4 ∧
    SpriteBit State.reset 0#4 1#4 5#4 3 0 ∧ State.reset.pixel 3 0 = false := by
  unfold SpriteBit
  decide
theorem witness_DrawTwice_no_clear_pixel :
    ¬ ∃ px py, px < 64 ∧ py < 32 ∧ SpriteBit (reg1 0 64) 0#4 1#4 5#4 px py ∧ (reg1 0 64).pixel px py = false := by
  rintro ⟨px, py, hx, _, ⟨h, _⟩, _⟩
  have h64 : ((reg1 0 64).reg 0#4).toNat = 64 := by decide
  omega

/-- One visible pixel, covered and set: the case in which the second of two equal draws reports no collision by the
pseudocode of R222 (log 16). -/
def coveredAndSet : State := ((State.reset.setIndex 0x300#16).store 0x300 0x80).setPix (State.reset.pix.toggle 0 0)

theorem witness_DrawTwice_covered_pixels_all_set : SpriteBit coveredAndSet 0#4 1#4 1#4 0 0 ∧
    ¬ ∃ px py, px < 64 ∧ py < 32 ∧ SpriteBit coveredAndSet 0#4 1#4 1#4 px py ∧ coveredAndSet.pixel px py = false := by
  refine ⟨by unfold SpriteBit; decide, ?_⟩
  rintro ⟨px, py, _, _, ⟨_, h8, _, h1, hb⟩, hp⟩
  have hx : (coveredAndSet.reg 0#4).toNat = 0 := by decide
  have hy : (coveredAndSet.reg 1#4).toNat = 0 := by decide
  have hn : (1#4 : Nibble).toNat = 1 := by decide
  rw [hx] at h8 hb
  rw [hy, hn] at h1
  rw [hy] at hb
  obtain rfl : py = 0 := by omega
  revert hb hp
  interval_cases px <;> decide

theorem witness_PixelMap_step : Executes (runningAt 0x00E0#16) .cls ∧
    Executes ((State.reset.placeWord 0xD125#16).setAgenda [.step]) (.drw 1#4 2#4 5#4) ∧
    step (runningAt 0x00E0#16) = .next ((runningAt 0x00E0#16).setPix Pixmap.clear).advance.countCycle :=
  ⟨by unfold Executes; decide, by unfold Executes; decide, rfl⟩
theorem witness_PixelMap_readers : (∀ x y n, Instr.cls ≠ .drw x y n) ∧
    exec .cls State.reset = .next (State.reset.setPix Pixmap.clear).advance ∧ ninth.tick.displaySignal = true :=
  ⟨fun _ _ _ h => (nomatch h), rfl, rfl⟩

theorem witness_WaitForKey_lowest :
    let s := (holding 9).setKey 3 true
    s.keyDown 3#4 = true ∧ ∀ j : Nibble, j.toNat < (3#4 : Nibble).toNat → s.keyDown j = false := by decide
theorem witness_WaitForKey_none : ∀ k : Nibble, State.reset.keyDown k = false := by decide
theorem witness_Keyboard_step : (State.reset.setAgenda [.setKeyState 0xF true]).turn.1 = .setKeyState 0xF#4 true ∧
    step (State.reset.setAgenda [.setKeyState 0xF true]) = .next (holding 0xF) := ⟨rfl, rfl⟩
theorem witness_Keyboard_readers : (∀ x, Instr.cls ≠ .skp x) ∧ (∀ x, Instr.cls ≠ .sknp x) ∧ (∀ x, Instr.cls ≠ .ldVxK x) ∧
    exec .cls State.reset = .next (State.reset.setPix Pixmap.clear).advance :=
  ⟨fun _ h => (nomatch h), fun _ h => (nomatch h), fun _ h => (nomatch h), rfl⟩

theorem witness_InstructionsWriteOnly : exec (.ldI 0x123#12) State.reset = .next (State.reset.setIndex 0x123#16).advance ∧
    exec (.call 0x300#12) State.reset = .next ((State.reset.push 0x202#16).setPc 0x300#16) := ⟨rfl, rfl⟩

theorem witness_OnlyFlag : exec (.addByte 0#4 1#8) (reg1 0 0xFF) =
      .next (((reg1 0 0xFF).setReg 0 0).setReg 0xF 1).advance ∧
    ((((reg1 0 0xFF).setReg 0 0).setReg 0xF 1).advance).reg 0xF#4 ≠ (reg1 0 0xFF).reg 0xF#4 := ⟨rfl, by decide⟩

/-- Two states that differ in every field of the scheduler and the controller. -/
theorem witness_ControlState :
    let s' := { ninth with dt := 0, st := 0, breakpoints := [0x200#16], stopRequest := true, displaySignal := true,
                           audioSignal := true, stopReason := some .stopRequested, report := some .done }
    SameArchitecture State.reset s' ∧ exec .cls State.reset = .next (State.reset.setPix Pixmap.clear).advance :=
  ⟨⟨fun _ => rfl, rfl, rfl, ⟨rfl, rfl⟩, ⟨rfl, rfl⟩, fun _ => rfl, rfl, rfl, rfl⟩, rfl⟩

theorem witness_Iteration_request :
    let s := (runningReset.setStopRequest true).setAgenda [.iteration, .stop]
    s.turn = (.iteration, (runningReset.setStopRequest true).setAgenda [.stop]) ∧ s.running = true ∧
      s.stopRequest = true := by decide
theorem witness_Iteration_breakpoint :
    let s := runningReset.setBreakpoints [0x200#16]
    s.turn = (.iteration, s) ∧ s.running = true ∧ s.stopRequest = false ∧ s.pc ∈ s.breakpoints := by decide
theorem witness_Iteration_stopped : (State.reset.setSchedule .tickLoop).turn = (.iteration, State.reset.setSchedule .tickLoop) ∧
    State.reset.running = false := by decide

/-- Ids 0 and 3 of two entries are refused; each of the two is the first or the last of the sequence. -/
theorem witness_Breakpoints :
    let s := State.reset.setBreakpoints [0x200#16, 0x210#16]
    s.breakpoints.length < 3 ∧ s.breakpoints = [] ++ 0x200#16 :: [0x210#16] ∧
      s.breakpoints = [0x200#16] ++ 0x210#16 :: [] ∧ s.breakpoints[1]? = some 0x210#16 := by decide

theorem witness_RunStop : faulted.fault ≠ none ∧ runningReset.fault = none ∧ runningReset.running = true ∧
    State.reset.fault = none ∧ State.reset.running = false := by decide

/-- Each action is the turn of some state; the tick loop and the free actions come with an empty agenda. -/
theorem witness_Agenda (a : Action) : (State.reset.setAgenda [a]).turn = (a, State.reset) := rfl
theorem witness_Schedules : runningReset.agenda = [] ∧ runningReset.schedule = .tickLoop ∧ State.reset.agenda = [] ∧
    State.reset.schedule = .free 0 := by decide

/-- A Running engine with a stop request, in the only run of the tick loop alone. -/
def requested : State := runningReset.setStopRequest true

/-- That run: the request stops the engine in the first step. -/
def requestedRun : Nat → State
  | 0 => requested
  | _ + 1 => (requested.setStopRequest false).stopFor .stopRequested

theorem witness_FairRun : Run requestedRun ∧ Fair requestedRun ∧ (requestedRun 0).running = true ∧
    (requestedRun 0).stopRequest = true :=
  ⟨fun n => by cases n <;> rfl, fun n => ⟨n, Nat.le_refl n, fun _ => by cases n <;> rfl⟩, rfl, rfl⟩

theorem witness_Sinks : ninth.tick.displaySignal = true ∧ ninth.tick.audioSignal = true ∧
    State.reset.displaySignal = false ∧ State.reset.audioSignal = false ∧ ninth.st.toNat ≠ 0 := by decide

end Sys2Proof.Tests
end

section
/-! PROOFS. What instructions and steps do to the timers, the pixel map and the keyboard (10_state.md R40 to R44). -/

namespace Sys2Proof.Machine

/-! ## Instructions -/

section Devices

variable (d e : Byte → Byte) (p : Pixmap → Pixmap) (k : Vector Bool 16 → Vector Bool 16)

/-- A state with its timers, its pixel map and its keyboard exchanged, each by a function of its own. -/
def State.mapDevices (s : State) : State :=
  { s with dt := d s.dt, st := e s.st, pix := p s.pix, key := k s.key }

/-- The exchange leaves alone every device that the instruction reads or writes (10_state.md R40, R41, R43, R44). -/
def SparesDevicesOf : Instr → Prop
  | .ldVxDt _ | .ldDtVx _ => d = id
  | .ldStVx _ => e = id
  | .cls | .drw _ _ _ => p = id
  | .skp _ | .sknp _ | .ldVxK _ => k = id
  | _ => True

theorem State.storeRegs_mapDevices (s : State) (n : Nat) :
    (s.mapDevices d e p k).storeRegs n = (s.storeRegs n).mapDevices d e p k := by
  induction n with
  | zero => rfl
  | succ n ih => simp only [State.storeRegs, ih]; rfl

theorem State.loadRegs_mapDevices (s : State) (n : Nat) :
    (s.mapDevices d e p k).loadRegs n = (s.loadRegs n).mapDevices d e p k := by
  induction n with
  | zero => rfl
  | succ n ih => simp only [State.loadRegs, ih]; rfl

variable {d e p k}

/-- An instruction does the same whatever the devices hold that it neither reads nor writes, and leaves them so. -/
theorem exec_mapDevices {i : Instr} {s t : State} (h : exec i s = .next t) (hi : SparesDevicesOf d e p k i) :
    exec i (s.mapDevices d e p k) = .next (t.mapDevices d e p k) := by
  cases i with
  | ret =>
    simp only [exec, execRet] at h ⊢
    split at h <;> cases h
    · exact dif_pos ‹_›
    · exact dif_neg ‹_›
  | call nnn =>
    simp only [exec, execCall] at h ⊢
    split at h <;> cases h
    · exact if_pos ‹_›
    · exact if_neg ‹_›
  | ldVxK x =>
    cases hi
    have hk : (s.mapDevices d e p id).lowestKey = s.lowestKey := rfl
    simp only [exec, execLdVxK, hk] at h ⊢
    split at h <;> cases h <;> rfl
  | ldMemVx x =>
    cases h
    simp only [exec, execLdMemVx, State.storeRegs_mapDevices]
    rfl
  | ldVxMem x =>
    cases h
    simp only [exec, execLdVxMem, State.loadRegs_mapDevices]
    rfl
  | ldVxDt _ | ldDtVx _ | ldStVx _ | cls | drw _ _ _ | skp _ | sknp _ => cases hi; cases h; rfl
  | _ => cases h; rfl

/-- Devices that an instruction spares and that hold still under the exchange before it hold still after it. -/
theorem exec_mapDevices_fixed {i : Instr} {s t : State} (h : exec i s = .next t) (hi : SparesDevicesOf d e p k i)
    (hs : s.mapDevices d e p k = s) : t.mapDevices d e p k = t := by
  have hm := exec_mapDevices h hi
  rw [hs, h] at hm
  exact (Host.Outcome.next.inj hm).symm

end Devices

/-- The fields that no instruction writes (10_state.md R44 to R51, and the turn and the report of logs 2 and 6). -/
theorem exec_unwritten {i : Instr} {s t : State} (h : exec i s = .next t) :
    t = { t with
      key := s.key, breakpoints := s.breakpoints, cycles := s.cycles, stopRequest := s.stopRequest,
      displaySignal := s.displaySignal, audioSignal := s.audioSignal, agenda := s.agenda, schedule := s.schedule,
      report := s.report } := by
  cases i with
  | ret =>
    simp only [exec, execRet] at h
    split at h <;> cases h <;> rfl
  | call nnn =>
    simp only [exec, execCall] at h
    split at h <;> cases h <;> rfl
  | ldVxK x =>
    simp only [exec, execLdVxK] at h
    split at h <;> cases h <;> rfl
  | ldMemVx x => cases h; rw [State.storeRegs_eq]; rfl
  | ldVxMem x => cases h; rw [State.loadRegs_eq]; rfl
  | _ => cases h; rfl

theorem exec_key {i : Instr} {s t : State} (h : exec i s = .next t) : t.key = s.key := by rw [exec_unwritten h]

theorem exec_cycles {i : Instr} {s t : State} (h : exec i s = .next t) : t.cycles = s.cycles := by rw [exec_unwritten h]

/-- DT is written by LD DT, Vx alone (10_state.md R40). -/
theorem exec_dt {i : Instr} {s t : State} (h : exec i s = .next t) :
    t.dt = s.dt ∨ ∃ x, i = .ldDtVx x ∧ t.dt = s.reg x := by
  cases i with
  | ldDtVx x => cases h; exact .inr ⟨x, rfl, rfl⟩
  | ldVxDt x => cases h; exact .inl rfl
  | _ =>
    have ht := exec_mapDevices_fixed (d := fun _ => s.dt) (e := id) (p := id) (k := id) h (by trivial) rfl
    exact .inl (congrArg State.dt ht).symm

/-- ST is written by LD ST, Vx alone (10_state.md R41). -/
theorem exec_st {i : Instr} {s t : State} (h : exec i s = .next t) :
    t.st = s.st ∨ ∃ x, i = .ldStVx x ∧ t.st = s.reg x := by
  cases i with
  | ldStVx x => cases h; exact .inr ⟨x, rfl, rfl⟩
  | _ =>
    have ht := exec_mapDevices_fixed (d := id) (e := fun _ => s.st) (p := id) (k := id) h (by trivial) rfl
    exact .inl (congrArg State.st ht).symm

/-- PIX is written by CLS and DRW alone (10_state.md R43). -/
theorem exec_pix {i : Instr} {s t : State} (h : exec i s = .next t) :
    t.pix = s.pix ∨ i = .cls ∨ ∃ x y n, i = .drw x y n := by
  cases i with
  | cls => exact .inr (.inl rfl)
  | drw x y n => exact .inr (.inr ⟨x, y, n, rfl⟩)
  | _ =>
    have ht := exec_mapDevices_fixed (d := id) (e := id) (p := fun _ => s.pix) (k := id) h (by trivial) rfl
    exact .inl (congrArg State.pix ht).symm

/-- No instruction reads ST (10_state.md R41). -/
theorem exec_setSound {i : Instr} {s t : State} (b : Byte) (h : exec i s = .next t) :
    ∃ u, exec i (s.setSound b) = .next u ∧ u.setSound t.st = t := by
  cases i with
  | ldStVx x => exact ⟨t, h, rfl⟩
  | _ => exact ⟨t.setSound b, exec_mapDevices (d := id) (e := fun _ => b) (p := id) (k := id) h (by trivial), rfl⟩

/-- Of the instructions only DRW reads PIX (10_state.md R43). -/
theorem exec_setPix {i : Instr} {s t : State} (q : Pixmap) (hi : ∀ x y n, i ≠ .drw x y n) (h : exec i s = .next t) :
    ∃ u, exec i (s.setPix q) = .next u ∧ u.setPix t.pix = t ∧ (u.pix = q ∨ i = .cls) := by
  cases i with
  | drw x y n => exact absurd rfl (hi x y n)
  | cls => exact ⟨t, h, rfl, .inr rfl⟩
  | _ =>
    exact ⟨t.setPix q, exec_mapDevices (d := id) (e := id) (p := fun _ => q) (k := id) h (by trivial), rfl, .inl rfl⟩

/-- Of the instructions only SKP, SKNP and LD Vx, K read the keys (10_state.md R44). -/
theorem exec_setKey {i : Instr} {s t : State} (k : Nibble) (pressed : Bool) (hskp : ∀ x, i ≠ .skp x)
    (hsknp : ∀ x, i ≠ .sknp x) (hwait : ∀ x, i ≠ .ldVxK x) (h : exec i s = .next t) :
    exec i (s.setKey k pressed) = .next (t.setKey k pressed) := by
  cases i with
  | skp x => exact absurd rfl (hskp x)
  | sknp x => exact absurd rfl (hsknp x)
  | ldVxK x => exact absurd rfl (hwait x)
  | _ =>
    exact exec_mapDevices (d := id) (e := id) (p := id) (k := fun keys => keys.set k.toNat pressed k.isLt) h (by trivial)

/-! ## The scheduler -/

@[simp] theorem State.account_pix (s : State) (o : StepOutcome) : (s.account o).pix = s.pix := by
  rcases s.account_cases o with h | ⟨_, h⟩ | h <;> rw [h] <;> rfl
@[simp] theorem State.account_key (s : State) (o : StepOutcome) : (s.account o).key = s.key := by
  rcases s.account_cases o with h | ⟨_, h⟩ | h <;> rw [h] <;> rfl

/-- A count-down is a subtraction that stops at 0 (60_exceptions.md R324). -/
theorem countDown_toNat (t : Byte) : (countDown t).toNat = t.toNat - 1 := by
  unfold countDown
  split <;> bv_omega

/-- The accounting leaves the timers alone but for the tick, which ends a window of nine (60_exceptions.md R322, R324). -/
theorem State.account_timers (s : State) (o : StepOutcome) :
    ((s.account o).dt = s.dt ∧ (s.account o).st = s.st) ∨
      (s.cycles.val = 8 ∧ (s.account o).dt.toNat = s.dt.toNat - 1 ∧ (s.account o).st.toNat = s.st.toNat - 1) := by
  cases o with
  | executed =>
    rcases s.countCycle_cases with ⟨_, c, _, h⟩ | ⟨h8, h⟩
    · exact .inl (by rw [State.account, h]; exact ⟨rfl, rfl⟩)
    · exact .inr (by rw [State.account, h]; exact ⟨h8, countDown_toNat _, countDown_toNat _⟩)
  | blocked => exact .inl ⟨rfl, rfl⟩
  | faulted _ => exact .inl ⟨rfl, rfl⟩

/-- Every key is released at reset (10_state.md R44). -/
theorem State.reset_keyDown : ∀ j, State.reset.keyDown j = false := by decide

/-- An executor step gives the state that its instruction leaves, after the accounting (60_exceptions.md R320, R322). -/
theorem stepAndAccount_cases {s t : State} (h : stepAndAccount s = .next t) :
    ∃ u, exec s.instrAtPc s = .next u ∧ t = u.account (stepOutcome s.instrAtPc s) := by
  unfold stepAndAccount stepInstr at h
  split at h <;> cases h
  exact ⟨_, ‹_›, rfl⟩

/-! ## The actions -/

/-- Everything is as before but the scheduler's and the controller's fields that a command, a sink or a stop of the engine
can write: the fields of a program, the cycle count and the fault record are kept. -/
def SameButCommandFields (s t : State) : Prop :=
  t = { s with
    breakpoints := t.breakpoints, running := t.running, stopRequest := t.stopRequest, stopReason := t.stopReason,
    displaySignal := t.displaySignal, audioSignal := t.audioSignal, report := t.report }

/-- The tick loop's turn: nothing of a program, or the step of a Running engine with no earlier event (R306, R321). -/
theorem tickLoop_cases {s t : State} (h : tickLoop s = .next t) :
    SameButCommandFields s t ∨
      (s.running = true ∧ s.stopRequest = false ∧ s.pc ∉ s.breakpoints ∧ stepAndAccount s = .next t) := by
  unfold tickLoop iteration at h
  split at h
  case isFalse => cases h; exact .inl rfl
  case isTrue hrun =>
    split at h
    case isTrue => cases h; exact .inl rfl
    case isFalse hreq =>
      split at h
      case isTrue => cases h; exact .inl rfl
      case isFalse hbp => exact .inr ⟨hrun, by simpa using hreq, by simpa using hbp, h⟩

/-- The debugger's step: nothing of a program, or the step of a Stopped engine that holds no fault (R357, R304). -/
theorem commandStep_cases {s t : State} (h : commandStep s = .next t) :
    SameButCommandFields s t ∨
      (s.running = false ∧ s.fault = none ∧ ∃ w, stepAndAccount s = .next w ∧ t = w.setReport .done) := by
  unfold commandStep at h
  split at h
  case isTrue => cases h; exact .inl rfl
  case isFalse hfault =>
    split at h
    case isTrue => cases h; exact .inl rfl
    case isFalse hrun =>
      split at h <;> cases h
      exact .inr ⟨by simpa using hrun, by simpa using hfault, _, ‹_›, rfl⟩

/-- A program load: refused with nothing but the answer, or done on a Stopped engine with an image that fits (R345). -/
theorem State.loadProgram_cases (s : State) (image : Image) :
    (∃ r, s.loadProgram image = (s, r)) ∨
      (s.running = false ∧ ∃ b, image = .bytes b ∧ b.length ≤ 0xE00 ∧ s.loadProgram image = (s.loadImage b, .done)) := by
  by_cases hrun : s.running = true
  · exact .inl ⟨_, if_pos hrun⟩
  · cases image with
    | unreadable => exact .inl ⟨_, if_neg hrun⟩
    | bytes b =>
      by_cases hlen : Config.maxImage < b.length
      · exact .inl ⟨.loadTooLarge, by simp [State.loadProgram, hrun, hlen]⟩
      · exact .inr ⟨by simpa using hrun, b, rfl, Nat.le_of_not_lt hlen, by simp [State.loadProgram, hrun, hlen]⟩

/-- What an action can do: touch command fields alone, set a key, load a program, or run the executor
(60_exceptions.md R321, R340 to R358). -/
theorem perform_cases {a : Action} {s t : State} (h : perform a s = .next t) :
    SameButCommandFields s t ∨
    (∃ k pressed, a = .setKeyState k pressed ∧ t = s.setKey k pressed) ∨
    (∃ b : List Byte, a = .loadProgram (.bytes b) ∧ s.running = false ∧ b.length ≤ 0xE00 ∧
      t = (s.loadImage b).setReport .done) ∨
    (((a = .iteration ∧ s.running = true ∧ s.stopRequest = false ∧ s.pc ∉ s.breakpoints) ∨
        (a = .step ∧ s.running = false ∧ s.fault = none)) ∧
      ∃ w, stepAndAccount s = .next w ∧ (t = w ∨ t = w.setReport .done)) := by
  cases a with
  | iteration =>
    rcases tickLoop_cases h with hq | ⟨hrun, hreq, hbp, hw⟩
    · exact .inl hq
    · exact .inr (.inr (.inr ⟨.inl ⟨rfl, hrun, hreq, hbp⟩, t, hw, .inl rfl⟩))
  | step =>
    rcases commandStep_cases h with hq | ⟨hrun, hfault, w, hw, ht⟩
    · exact .inl hq
    · exact .inr (.inr (.inr ⟨.inr ⟨rfl, hrun, hfault⟩, w, hw, .inr ht⟩))
  | setKeyState k pressed => cases h; exact .inr (.inl ⟨k, pressed, rfl, rfl⟩)
  | loadProgram image =>
    simp only [perform, answered] at h
    rcases s.loadProgram_cases image with ⟨r, hr⟩ | ⟨hrun, b, rfl, hlen, hr⟩ <;> rw [hr] at h <;> cases h
    · exact .inl rfl
    · exact .inr (.inr (.inl ⟨b, rfl, hrun, hlen, rfl⟩))
  | run =>
    simp only [perform, State.run] at h
    split at h
    case isTrue => cases h; exact .inl rfl
    case isFalse => split at h <;> cases h <;> exact .inl rfl
  | takeDisplay | takeAudio | deleteBreakpoint _ | stop =>
    simp only [perform, State.takeDisplay, State.takeAudio, State.deleteBreakpoint, State.stop] at h
    split at h <;> cases h <;> exact .inl rfl
  | dump | addBreakpoint _ | listBreakpoints | clearBreakpoints => cases h; exact .inl rfl

/-- What a step can do: touch the turn and command fields alone, set a key, load a program, or execute the instruction at PC
and account for it (60_exceptions.md R320, R331). -/
theorem step_cases {s t : State} (h : step s = .next t) :
    SameButCommandFields s.turn.2 t ∨
    (∃ k pressed, s.turn.1 = .setKeyState k pressed ∧ t = s.turn.2.setKey k pressed) ∨
    (∃ b : List Byte, Loads s ∧ t = (s.turn.2.loadImage b).setReport .done) ∨
    (Executes s s.instrAtPc ∧ ∃ u w, exec s.instrAtPc s.turn.2 = .next u ∧
      w = u.account (stepOutcome s.instrAtPc s.turn.2) ∧ (t = w ∨ t = w.setReport .done)) := by
  rcases perform_cases h with hq | hk | ⟨b, ha, hrun, hlen, ht⟩ | ⟨hex, w, hw, ht⟩
  · exact .inl hq
  · exact .inr (.inl hk)
  · exact .inr (.inr (.inl ⟨b, ⟨by simpa using hrun, b, ha, hlen⟩, ht⟩))
  · obtain ⟨u, hu, hwu⟩ := stepAndAccount_cases hw
    rw [s.instrAtPc_turn] at hu hwu
    exact .inr (.inr (.inr ⟨⟨rfl, by simpa using hex⟩, u, w, hu, hwu, ht⟩))

end Sys2Proof.Machine

open Sys2Proof Sys2Proof.Machine

/-- Settles O48: a step that changes the map executes CLS or DRW, or loads a program. -/
theorem pixelMapHasTwoWriters : Obligations.PixelMapHasTwoWriters := by
  refine ⟨fun s t h => ?_, fun i s t q hi h => exec_setPix q hi h, fun s hs => ?_, fun s => rfl, Pixmap.get_clear⟩
  · rcases step_cases h with hq | ⟨k, pressed, -, rfl⟩ | ⟨b, hload, rfl⟩ | ⟨hex, u, w, hu, rfl, ht⟩
    · exact .inl ((congrArg State.pix hq).trans s.turn_pix)
    · exact .inl s.turn_pix
    · exact .inr (.inr (.inr ⟨hload, Pixmap.get_clear⟩))
    · have htu : t.pix = u.pix := by rcases ht with rfl | rfl <;> simp
      rcases exec_pix hu with hpix | hi | ⟨x, y, n, hi⟩
      · exact .inl (htu.trans (hpix.trans s.turn_pix))
      · exact .inr (.inl (hi ▸ hex))
      · exact .inr (.inr (.inl ⟨x, y, n, hi ▸ hex⟩))
  · simp [State.takeDisplay, hs]

/-- Settles O51: of the steps only a key update and a load change the keys, since no instruction writes them. -/
theorem keyboardHasOneWriter : Obligations.KeyboardHasOneWriter := by
  refine ⟨fun s t h => ?_, fun i s t k pressed hskp hsknp hwait h => exec_setKey k pressed hskp hsknp hwait h,
    State.reset_keyDown⟩
  rcases step_cases h with hq | ⟨k, pressed, hturn, rfl⟩ | ⟨b, hload, rfl⟩ | ⟨-, u, w, hu, rfl, ht⟩
  · exact .inl ((congrArg State.key hq).trans s.turn_key)
  · exact .inr (.inl ⟨k, pressed, hturn, fun j => by simp [State.keyDown_setKey]⟩)
  · exact .inr (.inr ⟨hload, State.reset_keyDown⟩)
  · have htu : t.key = u.key := by rcases ht with rfl | rfl <;> simp
    exact .inl (htu.trans ((exec_key hu).trans s.turn_key))

/-- Settles O13: the base of a timer is what the executed instruction leaves in it, and the accounting takes at most one
off. -/
theorem timersAreWrittenByTheirLoadsAndTheTick : Obligations.TimersAreWrittenByTheirLoadsAndTheTick := by
  refine ⟨fun i s t h => ⟨exec_dt h, exec_st h⟩, fun x s => ⟨⟨_, rfl, ?_⟩, ⟨_, rfl, rfl⟩, ⟨_, rfl, rfl⟩⟩,
    fun s => ⟨countDown_toNat _, countDown_toNat _⟩, fun i s t b h => exec_setSound b h, fun s hs => ?_, rfl, rfl,
    fun s t h => ?_⟩
  · simp [State.reg_setReg]
  · simp [State.takeAudio, State.toneOn, hs]
  · rcases step_cases h with hq | ⟨k, pressed, -, rfl⟩ | ⟨b, hload, rfl⟩ | ⟨hex, u, w, hu, rfl, ht⟩
    · exact .inr ⟨s.dt, s.st, .inl rfl, .inl rfl,
        .inl ⟨(congrArg State.dt hq).trans s.turn_dt, (congrArg State.st hq).trans s.turn_st⟩⟩
    · exact .inr ⟨s.dt, s.st, .inl rfl, .inl rfl, .inl ⟨s.turn_dt, s.turn_st⟩⟩
    · exact .inl ⟨hload, rfl, rfl⟩
    · have hd : u.dt = s.dt ∨ ∃ x, Executes s (.ldDtVx x) ∧ u.dt = s.reg x :=
        (exec_dt hu).imp (·.trans s.turn_dt) fun ⟨x, hi, hx⟩ => ⟨x, hi ▸ hex, hx.trans (s.reg_turn x)⟩
      have he : u.st = s.st ∨ ∃ x, Executes s (.ldStVx x) ∧ u.st = s.reg x :=
        (exec_st hu).imp (·.trans s.turn_st) fun ⟨x, hi, hx⟩ => ⟨x, hi ▸ hex, hx.trans (s.reg_turn x)⟩
      have hdt : t.dt = (u.account (stepOutcome s.instrAtPc s.turn.2)).dt := by rcases ht with rfl | rfl <;> rfl
      have hst : t.st = (u.account (stepOutcome s.instrAtPc s.turn.2)).st := by rcases ht with rfl | rfl <;> rfl
      refine .inr ⟨u.dt, u.st, hd, he, ?_⟩
      rw [hdt, hst]
      exact (u.account_timers _).imp id fun ⟨h8, htick⟩ => ⟨hex, by simpa [exec_cycles hu] using h8, htick⟩
end

section
/-! PROOFS. A store to memory: the byte it writes and everything that it leaves alone (20_memory.md R79). -/

namespace Sys2Proof.Machine

/-- Storing the byte that an address already holds changes no byte. -/
theorem State.sameMem_store_of_byteAt_eq {s : State} {a : Nat} {b : Byte} (h : s.byteAt a = b) :
    SameMem s (s.store a b) := by
  intro k
  rw [State.byteAt_store]
  by_cases hk : k = a
  · rw [if_pos hk, hk, h]
  · rw [if_neg hk]

/-- A store leaves everything but the memory alone. -/
theorem State.sameButMemPc_store (s : State) (a : Nat) (b : Byte) : SameButMemPc s (s.store a b) := by
  simp [SameButMemPc, SameRegs, SameStack, SameTimers, SameKeys, SameControl, SameModel]

end Sys2Proof.Machine

open Sys2Proof Sys2Proof.Machine

/-- Settles O43: the second of two equal writes stores the byte that the address already holds. -/
theorem memoryHasNoSideEffects : Obligations.MemoryHasNoSideEffects := by
  intro s a b
  have hread : (s.store a b).byteAt a = b := by rw [State.byteAt_store, if_pos rfl]
  exact ⟨s.byteAt_store a b, State.sameMem_store_of_byteAt_eq hread, s.store_pc a b, s.sameButMemPc_store a b⟩
end

section
/-! PROOFS. Which words decode to UNKNOWN (30_encoding.md R108, R111), and what an advance of PC leaves alone. -/

namespace Sys2Proof

/-! The fields of a word as numbers (30_encoding.md R101). -/

theorem topNibble_toNat (w : Word) : (topNibble w).toNat = w.toNat / 0x1000 := by
  have hw := w.isLt
  simp only [topNibble, BitVec.extractLsb'_toNat, Nat.shiftRight_eq_div_pow]
  omega

theorem fields_n_toNat (w : Word) : (fields w).n.toNat = w.toNat % 0x10 := by
  simp [fields]

theorem fields_kk_toNat (w : Word) : (fields w).kk.toNat = w.toNat % 0x100 := by
  simp [fields]

/-! The three classes that hold unknown words. -/

/-- The arithmetic class answers UNKNOWN where no branch takes the low nibble. -/
theorem decode8_eq_unknown_iff (w v : Word) (f : Fields) :
    decode8 w f = .unknown v ↔ w = v ∧ 8 ≤ f.n.toNat ∧ f.n.toNat ≠ 0xE := by
  unfold decode8
  split_ifs
  all_goals simp [*]
  bv_omega

/-- The key class answers UNKNOWN where the low byte is neither selector. -/
theorem decodeE_eq_unknown_iff (w v : Word) (f : Fields) :
    decodeE w f = .unknown v ↔ w = v ∧ f.kk.toNat ≠ 0x9E ∧ f.kk.toNat ≠ 0xA1 := by
  unfold decodeE
  split_ifs
  all_goals simp [*]
  bv_omega

/-- The register/timer/key class answers UNKNOWN where the low byte is none of the nine selectors. -/
theorem decodeF_eq_unknown_iff (w v : Word) (f : Fields) :
    decodeF w f = .unknown v ↔
      w = v ∧ f.kk.toNat ∉ [0x07, 0x0A, 0x15, 0x18, 0x1E, 0x29, 0x33, 0x55, 0x65] := by
  unfold decodeF
  split_ifs
  all_goals simp [*]
  bv_omega

/-- Of the classes that the top nibble selects, 8, E and F alone hold unknown words. -/
theorem decodeTop_eq_unknown_iff (w v : Word) (f : Fields) (top : Nibble) :
    decodeTop w f top = .unknown v ↔
      (top.toNat = 0x8 ∧ decode8 w f = .unknown v) ∨ (top.toNat = 0xE ∧ decodeE w f = .unknown v) ∨
      (top.toNat = 0xF ∧ decodeF w f = .unknown v) := by
  obtain ⟨k, hk, rfl⟩ : ∃ k < 16, top = BitVec.ofNat 4 k := ⟨top.toNat, top.isLt, by simp⟩
  interval_cases k <;> simp [decodeTop]

/-- A word of top nibble 0 is CLS, RET or SYS. -/
theorem decode_ne_unknown_of_topNibble_zero {w : Word} (h : topNibble w = 0x0#4) (v : Word) :
    decode w ≠ .unknown v := by
  unfold decode decodeTop
  rw [if_pos h]
  split_ifs <;> exact Instr.noConfusion

/-- The words that decode to UNKNOWN, each to itself: those that R108 lists. -/
theorem decode_eq_unknown_iff (w v : Word) :
    decode w = .unknown v ↔
      w = v ∧
        ((w.toNat / 0x1000 = 0x8 ∧ 8 ≤ w.toNat % 0x10 ∧ w.toNat % 0x10 ≠ 0xE) ∨
        (w.toNat / 0x1000 = 0xE ∧ w.toNat % 0x100 ≠ 0x9E ∧ w.toNat % 0x100 ≠ 0xA1) ∨
        (w.toNat / 0x1000 = 0xF ∧
          w.toNat % 0x100 ∉ [0x07, 0x0A, 0x15, 0x18, 0x1E, 0x29, 0x33, 0x55, 0x65])) := by
  by_cases htop : topNibble w = 0x0#4
  case pos =>
    have hw : w.toNat / 0x1000 = 0 := by rw [← topNibble_toNat, htop]; rfl
    simp [decode_ne_unknown_of_topNibble_zero htop v, hw]
  case neg =>
    rw [decode_of_topNibble w htop, decodeTop_eq_unknown_iff, decode8_eq_unknown_iff, decodeE_eq_unknown_iff,
      decodeF_eq_unknown_iff, topNibble_toNat, fields_n_toNat, fields_kk_toNat]
    simp only [and_left_comm (b := w = v), and_or_left]

end Sys2Proof

namespace Sys2Proof.Machine

/-- An advance moves PC by one instruction, modulo 2^16. -/
theorem State.pcBy_advance (s : State) : PcBy 2 s s.advance := BitVec.toNat_add s.pc 2#16

/-- An advance leaves everything but PC alone. -/
theorem State.sameButPc_advance (s : State) : SameButPc s s.advance := by
  simp [SameButPc, SameButRegsPc, SameButRegsPcDraws, SameRegs, SameStack, SameTimers, SameMem, SameKeys,
    SameControl, SameModel]

end Sys2Proof.Machine

open Sys2Proof Sys2Proof.Machine

/-- Settles O5: only the last branches of the classes 8, E and F answer UNKNOWN, and UNKNOWN is an advance. -/
theorem unknownWordsAreInert : Obligations.UnknownWordsAreInert := by
  intro w s
  refine ⟨(decode_eq_unknown_iff w w).trans (and_iff_right rfl),
    fun v h => ((decode_eq_unknown_iff w v).mp h).1.symm, fun nnn h => ?_,
    s.advance, rfl, s.pcBy_advance, s.sameButPc_advance⟩
  rw [h]
  exact Instr.noConfusion
end

section
/-! PROOFS. The values of the 8-bit sums and differences (41_alu.md R177), and what a register load, an ADD, a SUB or a SUBN
makes of the registers (R171, R172, R178, R179, R181). -/

namespace Sys2Proof

/-- A word of top nibble 6 is LD Vx, kk. -/
theorem decode_formatXK_ldByte (x : RegIdx) (kk : Byte) : decode (formatXK 0x6#4 x kk) = .ldByte x kk := by
  have htop : topNibble (formatXK 0x6#4 x kk) = 0x6#4 := topNibble_formatXK _ _ _
  rw [decode_of_topNibble _ (by rw [htop]; decide), htop]
  simp [decodeTop]

end Sys2Proof

namespace Sys2Proof.Machine

/-! The laws of R177, as numbers. -/

theorem flag_toNat (p : Prop) [Decidable p] : (flag (decide p)).toNat = if p then 1 else 0 := by
  by_cases hp : p <;> simp [flag, hp]

theorem addResult_toNat (a b : Byte) : (addResult a b).toNat = (a.toNat + b.toNat) % 256 := BitVec.toNat_ofNat _ 8

theorem carryFlag_toNat (a b : Byte) : (carryFlag a b).toNat = if 255 < a.toNat + b.toNat then 1 else 0 :=
  flag_toNat _

theorem subResult_toNat (a b : Byte) : (subResult a b).toNat = (a.toNat + 256 - b.toNat) % 256 :=
  BitVec.toNat_ofNat _ 8

/-- The 256 that keeps the natural difference from going below 0 is lost modulo 256. -/
theorem subResult_toInt_emod (a b : Byte) : ((subResult a b).toNat : Int) = (a.toNat - b.toNat : Int) % 256 := by
  have hb := b.isLt
  rw [subResult_toNat]
  omega

theorem notBorrowFlag_toNat (a b : Byte) : (notBorrowFlag a b).toNat = if b.toNat ≤ a.toNat then 1 else 0 :=
  flag_toNat _

theorem subResult_self (a : Byte) : subResult a a = 0#8 := by
  apply BitVec.eq_of_toNat_eq
  rw [subResult_toNat, Nat.add_sub_cancel_left]
  rfl

theorem notBorrowFlag_self (a : Byte) : notBorrowFlag a a = 1#8 := by simp [notBorrowFlag, flag]

/-! One register write: the shape of LD Vx, kk. -/

/-- A register write and the advance leave everything but the registers and PC alone. -/
theorem State.sameButRegsPc_setReg_advance (s : State) (x : RegIdx) (b : Byte) :
    SameButRegsPc s (s.setReg x b).advance := (s.setReg x b).sameButPc_advance.2

/-! A result in Vx, then a flag in VF: the shape that ADD, SUB and SUBN share (10_state.md R33). -/

/-- `V[x] <- result; V[F] <- c`, then PC advances. -/
def State.setResultThenFlag (s : State) (x : RegIdx) (result c : Byte) : State :=
  ((s.setReg x result).setReg flagReg c).advance

theorem exec_addByte_eq (x : RegIdx) (kk : Byte) (s : State) : exec (.addByte x kk) s =
    .next (s.setResultThenFlag x (addResult (s.reg x) kk) (carryFlag (s.reg x) kk)) := rfl

theorem exec_addReg_eq (x y : RegIdx) (s : State) : exec (.addReg x y) s =
    .next (s.setResultThenFlag x (addResult (s.reg x) (s.reg y)) (carryFlag (s.reg x) (s.reg y))) := rfl

theorem exec_sub_eq (x y : RegIdx) (s : State) : exec (.sub x y) s =
    .next (s.setResultThenFlag x (subResult (s.reg x) (s.reg y)) (notBorrowFlag (s.reg x) (s.reg y))) := rfl

theorem exec_subn_eq (x y : RegIdx) (s : State) : exec (.subn x y) s =
    .next (s.setResultThenFlag x (subResult (s.reg y) (s.reg x)) (notBorrowFlag (s.reg y) (s.reg x))) := rfl

/-- The flag is written last, so that it stays in VF whatever `x` is. -/
theorem State.reg_setResultThenFlag (s : State) (x : RegIdx) (result c : Byte) (r : RegIdx) :
    (s.setResultThenFlag x result c).reg r = if r = flagReg then c else if r = x then result else s.reg r := by
  rw [State.setResultThenFlag, State.reg_advance, State.reg_setReg, State.reg_setReg]

@[simp] theorem State.reg_setResultThenFlag_flag (s : State) (x : RegIdx) (result c : Byte) :
    (s.setResultThenFlag x result c).reg flagReg = c := by
  rw [State.reg_setResultThenFlag, if_pos rfl]

section
variable (s : State) {x : RegIdx} (hx : x ≠ flagReg)
include hx

theorem State.reg_setResultThenFlag_dest (result c : Byte) : (s.setResultThenFlag x result c).reg x = result := by
  rw [State.reg_setResultThenFlag, if_neg hx, if_pos rfl]

/-- The law of add, read in Vx and VF after the writes of an ADD. -/
theorem State.add_law_of_writes (a b : Byte) :
    ((s.setResultThenFlag x (addResult a b) (carryFlag a b)).reg x).toNat = (a.toNat + b.toNat) % 256 ∧
      ((s.setResultThenFlag x (addResult a b) (carryFlag a b)).reg flagReg).toNat =
        if 255 < a.toNat + b.toNat then 1 else 0 := by
  rw [s.reg_setResultThenFlag_dest hx, s.reg_setResultThenFlag_flag]
  exact ⟨addResult_toNat a b, carryFlag_toNat a b⟩

/-- The law of sub, read in Vx and VF after the writes of a SUB or a SUBN. -/
theorem State.sub_law_of_writes (a b : Byte) :
    (((s.setResultThenFlag x (subResult a b) (notBorrowFlag a b)).reg x).toNat : Int) =
        (a.toNat - b.toNat : Int) % 256 ∧
      ((s.setResultThenFlag x (subResult a b) (notBorrowFlag a b)).reg flagReg).toNat =
        (if b.toNat ≤ a.toNat then 1 else 0) ∧
      (a = b → (s.setResultThenFlag x (subResult a b) (notBorrowFlag a b)).reg x = 0#8 ∧
        (s.setResultThenFlag x (subResult a b) (notBorrowFlag a b)).reg flagReg = 1#8) := by
  rw [s.reg_setResultThenFlag_dest hx, s.reg_setResultThenFlag_flag]
  refine ⟨subResult_toInt_emod a b, notBorrowFlag_toNat a b, ?_⟩
  rintro rfl
  exact ⟨subResult_self a, notBorrowFlag_self a⟩

end

end Sys2Proof.Machine

open Sys2Proof Sys2Proof.Machine

/-- Settles O33: each of the four instructions writes its result, then its flag, and R177 gives their values. -/
theorem exactLawsOfAddAndSub : Obligations.ExactLawsOfAddAndSub := by
  intro x y kk s hx
  refine ⟨⟨_, exec_addReg_eq x y s, s.add_law_of_writes hx _ _⟩, ⟨_, exec_addByte_eq x kk s, s.add_law_of_writes hx _ _⟩,
    ⟨_, exec_sub_eq x y s, s.sub_law_of_writes hx _ _⟩, _, exec_subn_eq x y s, ?_⟩
  obtain ⟨hresult, hflag, hequal⟩ := s.sub_law_of_writes hx (s.reg y) (s.reg x)
  exact ⟨hresult, hflag, fun h => hequal h.symm⟩

/-- Settles O31: the next state is one register write and an advance. -/
theorem loadImmediate : Obligations.LoadImmediate := by
  intro x kk s
  have hexec : exec (.ldByte x kk) s = .next (s.setReg x kk).advance := rfl
  exact ⟨decode_formatXK_ldByte x kk, _, hexec, s.reg_setReg x kk, (s.setReg x kk).pcBy_advance,
    s.sameButRegsPc_setReg_advance x kk⟩
end

section
/-! PROOFS. What CLS makes of the state (43_display.md R220). -/

namespace Sys2Proof

/-- The word of CLS is matched whole, before any field of it is looked at (30_encoding.md R105). -/
theorem decode_cls : decode 0x00E0#16 = .cls := if_pos rfl

end Sys2Proof

namespace Sys2Proof.Machine

theorem exec_cls_eq (s : State) : exec .cls s = .next (s.setPix Pixmap.clear).advance := rfl

/-- A new pixel map and the advance leave every register alone, VF included. -/
theorem State.sameRegs_setPix_advance (s : State) (p : Pixmap) : SameRegs s (s.setPix p).advance :=
  (s.setPix p).sameButPc_advance.1

/-- A new pixel map and the advance leave alone what is neither a register, the map nor PC. -/
theorem State.sameButRegsPixPc_setPix_advance (s : State) (p : Pixmap) :
    SameButRegsPixPc s (s.setPix p).advance := by
  obtain ⟨-, ⟨hi, hstack, htimers, hmem, -, hkeys, hcontrol, hmodel⟩, hdraws⟩ := (s.setPix p).sameButPc_advance
  exact ⟨hi, hstack, htimers, hmem, hkeys, hcontrol, hmodel, hdraws⟩

end Sys2Proof.Machine

open Sys2Proof Sys2Proof.Machine

/-- Settles O45: the next state is the write of the clear map and an advance. -/
theorem clearDisplay : Obligations.ClearDisplay := by
  refine ⟨decode_cls, fun s => ⟨_, exec_cls_eq s, ?_, ?_, ?_, ?_⟩⟩
  · exact Pixmap.get_clear
  · exact (s.setPix Pixmap.clear).pcBy_advance
  · exact s.sameRegs_setPix_advance Pixmap.clear
  · exact s.sameButRegsPixPc_setPix_advance Pixmap.clear
end

section
/-! PROOFS. A step that executes LD Vx, K: Blocked with no key pressed, the next cycle with one (44_timers_keys.md R250 to
R252). -/

namespace Sys2Proof.Machine

/-- A step that executes an instruction leaves what the instruction leaves, after the accounting; the debugger's step also
answers (60_exceptions.md R320 to R322, R357). -/
theorem step_of_executes {s u : State} {i : Instr} (hex : Executes s i) (hu : exec i s.turn.2 = .next u) :
    step s = .next (if s.running = true then u.account (stepOutcome i s.turn.2)
      else (u.account (stepOutcome i s.turn.2)).setReport .done) := by
  obtain ⟨hi, hturn⟩ := hex
  have hstep : stepAndAccount s.turn.2 = .next (u.account (stepOutcome i s.turn.2)) := by
    simp [stepAndAccount, stepInstr, hi, hu]
  rcases hturn with ⟨ha, hrun, hreq, hbp⟩ | ⟨ha, hrun, hfault⟩
  · simp [step, nextAction, perform, ha, tickLoop, iteration, hrun, hreq, hbp, hstep]
  · simp [step, nextAction, perform, ha, commandStep, hrun, hfault, hstep, answered]

theorem exec_ldVxK_of_lowestKey_none {s : State} (x : RegIdx) (h : s.lowestKey = none) :
    exec (.ldVxK x) s = .next s := by
  simp [exec, execLdVxK, h]

theorem exec_ldVxK_of_lowestKey_some {s : State} {k : Nibble} (x : RegIdx) (h : s.lowestKey = some k) :
    exec (.ldVxK x) s = .next (s.setReg x (k.setWidth 8)).advance := by
  simp [exec, execLdVxK, h]

theorem stepOutcome_ldVxK_of_lowestKey_none {s : State} (x : RegIdx) (h : s.lowestKey = none) :
    stepOutcome (.ldVxK x) s = .blocked := by
  simp [stepOutcome, h]

theorem stepOutcome_ldVxK_of_lowestKey_some {s : State} {k : Nibble} (x : RegIdx) (h : s.lowestKey = some k) :
    stepOutcome (.ldVxK x) s = .executed := by
  simp [stepOutcome, h]

theorem State.exists_lowestKey_of_keyDown {s : State} {k : Nibble} (h : s.keyDown k = true) :
    ∃ j, s.lowestKey = some j := by
  refine Option.ne_none_iff_exists'.mp fun hnone => ?_
  simp [s.lowestKey_none.mp hnone k] at h

/-- `t` is one cycle of the window after `s`, as far as the count, the timers and the signals go: the ninth cycle ends the
window with the tick, another leaves timers and signals alone (60_exceptions.md R322 to R326). -/
def IsNextCycle (s t : State) : Prop :=
  t.cycles.val = (s.cycles.val + 1) % 9 ∧
    (s.cycles.val = 8 → t.dt.toNat = s.dt.toNat - 1 ∧ t.st.toNat = s.st.toNat - 1 ∧ t.displaySignal = true ∧
      t.audioSignal = true) ∧
    (s.cycles.val < 8 → t.dt = s.dt ∧ t.st = s.st ∧ t.displaySignal = s.displaySignal ∧ t.audioSignal = s.audioSignal)

theorem State.isNextCycle_countCycle (s : State) : IsNextCycle s s.countCycle := by
  rcases s.countCycle_cases with ⟨hlt, c, hc, h⟩ | ⟨h8, h⟩ <;> rw [h]
  · refine ⟨?_, fun h8 => absurd h8 hlt.ne, fun _ => ⟨rfl, rfl, rfl, rfl⟩⟩
    simp only [State.setCycles_cycles, hc]
    omega
  · exact ⟨by simp [h8], fun _ => ⟨countDown_toNat _, countDown_toNat _, rfl, rfl⟩, fun hlt => absurd h8 hlt.ne⟩

/-- The turn, a register and PC play no part in the next cycle (10_state.md R40, R41, R47). -/
theorem State.isNextCycle_turn_setReg_advance (s : State) (x : RegIdx) (b : Byte) :
    IsNextCycle s (s.turn.2.setReg x b).advance.countCycle := by
  simpa [IsNextCycle] using (s.turn.2.setReg x b).advance.isNextCycle_countCycle

end Sys2Proof.Machine

open Sys2Proof Sys2Proof.Machine

/-- Settles O12: with no key pressed the instruction and the accounting both leave the state alone, with one pressed the
accounting counts a cycle over a register write and an advance. -/
theorem blockedKeyWaitFreezesTheTick : Obligations.BlockedKeyWaitFreezesTheTick := by
  intro s x hex
  constructor
  · intro hup
    have hkey : s.turn.2.lowestKey = none := (State.lowestKey_none _).mpr (by simpa using hup)
    rw [step_of_executes hex (exec_ldVxK_of_lowestKey_none x hkey), stepOutcome_ldVxK_of_lowestKey_none x hkey]
    rfl
  · intro k hdown
    obtain ⟨j, hkey⟩ : ∃ j, s.turn.2.lowestKey = some j :=
      State.exists_lowestKey_of_keyDown ((s.keyDown_turn k).trans hdown)
    have hnext : IsNextCycle s (s.turn.2.setReg x (j.setWidth 8)).advance.countCycle :=
      s.isNextCycle_turn_setReg_advance x (j.setWidth 8)
    refine ⟨_, step_of_executes hex (exec_ldVxK_of_lowestKey_some x hkey), ?_⟩
    rw [stepOutcome_ldVxK_of_lowestKey_some x hkey]
    split <;> exact hnext
end

section
/-! PROOFS. What the Executor answers for each instruction, and which of them raise a fault (60_exceptions.md R300 to
R302). -/

namespace Sys2Proof.Machine

/-- Every instruction answers a next state: CALL on a full stack and RET on an empty one take their fault, every other
step leaves the fault record and the run state alone (60_exceptions.md R300, R301). -/
theorem exec_fault_cases (i : Instr) (s : State) :
    ((∃ nnn, i = .call nnn) ∧ s.sp.val = 0 ∧ exec i s = .next (s.takeFault .stackOverflow)) ∨
      (i = .ret ∧ s.sp.val = 16 ∧ exec i s = .next (s.takeFault .stackUnderflow)) ∨
      ∃ t, exec i s = .next t ∧ t.fault = s.fault ∧ t.running = s.running ∧ t.stopReason = s.stopReason := by
  cases i with
  | call nnn =>
    by_cases hsp : s.sp.val = 0
    · exact .inl ⟨⟨nnn, rfl⟩, hsp, if_pos hsp⟩
    · exact .inr (.inr ⟨_, if_neg hsp, rfl, rfl, rfl⟩)
  | ret =>
    by_cases hsp : s.sp.val = 16
    · exact .inr (.inl ⟨rfl, hsp, dif_neg (not_not.mpr hsp)⟩)
    · exact .inr (.inr ⟨_, dif_pos hsp, rfl, rfl, rfl⟩)
  | ldVxK x =>
    cases hkey : s.lowestKey with
    | none => exact .inr (.inr ⟨_, exec_ldVxK_of_lowestKey_none x hkey, rfl, rfl, rfl⟩)
    | some k => exact .inr (.inr ⟨_, exec_ldVxK_of_lowestKey_some x hkey, rfl, rfl, rfl⟩)
  | ldMemVx x =>
    refine .inr (.inr ⟨(s.storeRegs (x.toNat + 1)).advance, rfl, ?_⟩)
    rw [State.storeRegs_eq]
    exact ⟨rfl, rfl, rfl⟩
  | ldVxMem x =>
    refine .inr (.inr ⟨(s.loadRegs (x.toNat + 1)).advance, rfl, ?_⟩)
    rw [State.loadRegs_eq]
    exact ⟨rfl, rfl, rfl⟩
  | _ => exact .inr (.inr ⟨_, rfl, rfl, rfl, rfl⟩)

end Sys2Proof.Machine

open Sys2Proof Sys2Proof.Machine

/-- Settles O14: the two cases that take a fault are the two that the statement leaves out. -/
theorem nothingElseFaults : Obligations.NothingElseFaults := by
  intro i s
  rcases exec_fault_cases i s with ⟨hcall, hsp, h⟩ | ⟨hret, hsp, h⟩ | ⟨t, h, hkept⟩
  · exact ⟨_, h, fun hfull _ => absurd ⟨hcall, hsp⟩ hfull⟩
  · exact ⟨_, h, fun _ hempty => absurd ⟨hret, hsp⟩ hempty⟩
  · exact ⟨t, h, fun _ _ => hkept⟩
end

section
/-! PROOFS. The breakpoint sequence: its entries with their 1-based positions, and one entry deleted (60_exceptions.md R351
to R353). -/

namespace Sys2Proof.Machine

/-- The numbered entries are the library's indexed entries, with the position first. -/
theorem numbered_eq_map_zipIdx (id : Nat) (l : List Word) : numbered id l = (l.zipIdx id).map Prod.swap := by
  induction l generalizing id with
  | nil => rfl
  | cons a l ih => simp [numbered, ih]

@[simp] theorem length_numbered (id : Nat) (l : List Word) : (numbered id l).length = l.length := by
  simp [numbered_eq_map_zipIdx]

@[simp] theorem getElem?_numbered (id : Nat) (l : List Word) (p : Nat) :
    (numbered id l)[p]? = l[p]?.map fun a => (p + id, a) := by
  simp [numbered_eq_map_zipIdx, Function.comp_def, Nat.add_comm]

/-- The id of an entry is one more than the number of entries before it. -/
theorem State.deleteBreakpoint_of_eq_append {s : State} {before after : List Word} {a : Word}
    (h : s.breakpoints = before ++ a :: after) :
    s.deleteBreakpoint (before.length + 1) = (s.setBreakpoints (before ++ after), .done) := by
  have hid : ¬ (before.length + 1 = 0 ∨ s.breakpoints.length < before.length + 1) := by
    rw [h, List.length_append, List.length_cons]
    omega
  have herase : s.breakpoints.eraseIdx (before.length + 1 - 1) = before ++ after := by
    rw [h, Nat.add_sub_cancel, List.eraseIdx_append_of_length_le le_rfl, Nat.sub_self, List.eraseIdx_cons_zero]
  rw [State.deleteBreakpoint, if_neg hid, herase]

end Sys2Proof.Machine

open Sys2Proof Sys2Proof.Machine

/-- Settles O56: the list is the numbered sequence, an id that is no position is refused, and another splits the sequence
at its entry. -/
theorem breakpointCommands : Obligations.BreakpointCommands := by
  intro s
  refine ⟨⟨rfl, _, rfl, length_numbered 1 _, getElem?_numbered 1 _⟩, ?_, ?_, rfl⟩
  · exact fun id hid => if_pos hid
  · exact fun before a after h => State.deleteBreakpoint_of_eq_append h
end

section
/-! PROOFS. The tick (60_exceptions.md R324, R325). -/

open Sys2Proof Sys2Proof.Machine

/-- Settles O10: each timer is counted down by the clamped subtraction, and the tick's other writes are the two signals. -/
theorem tickCountsBothTimersDown : Obligations.TickCountsBothTimersDown :=
  fun s => ⟨countDown_toNat s.dt, countDown_toNat s.st, rfl⟩
end

section
/-! PROOFS. The codec both ways, and the operand fields as masks (30_encoding.md R101 to R111). -/

namespace Sys2Proof

/-! Decoding a word that is put together from its fields: each format keeps the top nibble and the fields. -/

theorem decode_formatA {op : Nibble} (nnn : Addr12) (hop : op ≠ 0x0#4) :
    decode (formatA op nnn) = decodeTop (formatA op nnn) (fields (formatA op nnn)) op := by
  rw [decode_of_topNibble _ (by rwa [topNibble_formatA]), topNibble_formatA]

theorem decode_formatXK {op : Nibble} (x : RegIdx) (kk : Byte) (hop : op ≠ 0x0#4) :
    decode (formatXK op x kk) = decodeTop (formatXK op x kk) (fields (formatXK op x kk)) op := by
  rw [decode_of_topNibble _ (by rwa [topNibble_formatXK]), topNibble_formatXK]

theorem decode_formatXYN {op : Nibble} (x y : RegIdx) (n : Nibble) (hop : op ≠ 0x0#4) :
    decode (formatXYN op x y n) = decodeTop (formatXYN op x y n) (fields (formatXYN op x y n)) op := by
  rw [decode_of_topNibble _ (by rwa [topNibble_formatXYN]), topNibble_formatXYN]

/-- A word of top nibble 0 is SYS unless it is one of the two full words (R105, R110). -/
theorem decode_formatA_sys {nnn : Addr12} (hcls : nnn ≠ 0x0E0#12) (hret : nnn ≠ 0x0EE#12) :
    decode (formatA 0x0#4 nnn) = .sys nnn := by
  have hfield (w : Word) (h : formatA 0x0#4 nnn = w) : nnn = (fields w).nnn := by rw [← h, fields_formatA_nnn]
  unfold decode
  rw [if_neg fun h => hcls (hfield 0x00E0#16 h), if_neg fun h => hret (hfield 0x00EE#16 h)]
  simp [decodeTop]

/-- The check on UNKNOWN's word accepts the words of R108. -/
theorem isUnknownWord_iff (w : Word) :
    isUnknownWord w = true ↔
      (w.toNat / 0x1000 = 0x8 ∧ 8 ≤ w.toNat % 0x10 ∧ w.toNat % 0x10 ≠ 0xE) ∨
      (w.toNat / 0x1000 = 0xE ∧ w.toNat % 0x100 ≠ 0x9E ∧ w.toNat % 0x100 ≠ 0xA1) ∨
      (w.toNat / 0x1000 = 0xF ∧ w.toNat % 0x100 ∉ [0x07, 0x0A, 0x15, 0x18, 0x1E, 0x29, 0x33, 0x55, 0x65]) := by
  have htop : (w.extractLsb' 12 4).toNat = w.toNat / 0x1000 := topNibble_toNat w
  have hn : (w.extractLsb' 0 4).toNat = w.toNat % 0x10 := fields_n_toNat w
  have hkk : (w.extractLsb' 0 8).toNat = w.toNat % 0x100 := fields_kk_toNat w
  rw [← htop, ← hn, ← hkk]
  simp [isUnknownWord, BitVec.le_def, ← BitVec.toNat_inj, or_assoc]

/-- UNKNOWN is what its well-formed words decode to (R111). -/
theorem decode_eq_unknown_iff_isUnknownWord (w v : Word) :
    decode w = .unknown v ↔ w = v ∧ isUnknownWord w = true := by
  rw [decode_eq_unknown_iff, isUnknownWord_iff]

/-- Decoding undoes encoding on every well-formed instruction. -/
theorem decode_encode (i : Instr) (h : WellFormed i = true) : decode (encode i) = i := by
  cases i with
  | sys nnn =>
    obtain ⟨hcls, hret⟩ : nnn ≠ 0x0E0#12 ∧ nnn ≠ 0x0EE#12 := by simpa [WellFormed] using h
    exact decode_formatA_sys hcls hret
  | cls | ret => rfl
  | jp _ | call _ | ldI _ | jpV0 _ =>
    rw [encode, decode_formatA _ (by decide)]
    simp [decodeTop]
  | seByte _ _ | sneByte _ _ | ldByte _ _ | addByte _ _ | rnd _ _ =>
    rw [encode, decode_formatXK _ _ (by decide)]
    simp [decodeTop]
  | skp _ | sknp _ =>
    rw [encode, decode_formatXK _ _ (by decide)]
    simp [decodeTop, decodeE]
  | ldVxDt _ | ldVxK _ | ldDtVx _ | ldStVx _ | addI _ | ldF _ | ldB _ | ldMemVx _ | ldVxMem _ =>
    rw [encode, decode_formatXK _ _ (by decide)]
    simp [decodeTop, decodeF]
  | seReg _ _ _ | sneReg _ _ _ | drw _ _ _ =>
    rw [encode, decode_formatXYN _ _ _ (by decide)]
    simp [decodeTop]
  | ldReg _ _ | orReg _ _ | andReg _ _ | xorReg _ _ | addReg _ _ | sub _ _ | shr _ _ | subn _ _ | shl _ _ =>
    rw [encode, decode_formatXYN _ _ _ (by decide)]
    simp [decodeTop, decode8]
  | unknown w => exact (decode_eq_unknown_iff_isUnknownWord w w).mpr ⟨rfl, h⟩

/-! Encoding what a word decodes to: the fields of a word, in the format of its class, give the word back. -/

section
variable {w : Word} {op : Nibble} (htop : topNibble w = op)
include htop

theorem formatA_eq_word : formatA op (fields w).nnn = w := htop ▸ formatA_of_fields w

theorem formatXK_eq_word {kk : Byte} (hkk : (fields w).kk = kk) : formatXK op (fields w).x kk = w :=
  htop ▸ hkk ▸ formatXK_of_fields w

theorem formatXYN_eq_word {n : Nibble} (hn : (fields w).n = n) : formatXYN op (fields w).x (fields w).y n = w :=
  htop ▸ hn ▸ formatXYN_of_fields w

end

theorem encode_decode8 {w : Word} (htop : topNibble w = 0x8#4) : encode (decode8 w (fields w)) = w := by
  unfold decode8
  split_ifs
  all_goals try exact formatXYN_eq_word htop ‹_›
  rfl

theorem encode_decodeE {w : Word} (htop : topNibble w = 0xE#4) : encode (decodeE w (fields w)) = w := by
  unfold decodeE
  split_ifs
  all_goals try exact formatXK_eq_word htop ‹_›
  rfl

theorem encode_decodeF {w : Word} (htop : topNibble w = 0xF#4) : encode (decodeF w (fields w)) = w := by
  unfold decodeF
  split_ifs
  all_goals try exact formatXK_eq_word htop ‹_›
  rfl

theorem encode_decodeTop (w : Word) : encode (decodeTop w (fields w) (topNibble w)) = w := by
  obtain ⟨k, hk, htop⟩ : ∃ k < 16, topNibble w = BitVec.ofNat 4 k := ⟨(topNibble w).toNat, (topNibble w).isLt, by simp⟩
  rw [htop]
  interval_cases k
  · exact formatA_eq_word htop
  · exact formatA_eq_word htop
  · exact formatA_eq_word htop
  · exact formatXK_eq_word htop rfl
  · exact formatXK_eq_word htop rfl
  · exact formatXYN_eq_word htop rfl
  · exact formatXK_eq_word htop rfl
  · exact formatXK_eq_word htop rfl
  · exact encode_decode8 htop
  · exact formatXYN_eq_word htop rfl
  · exact formatA_eq_word htop
  · exact formatA_eq_word htop
  · exact formatXK_eq_word htop rfl
  · exact formatXYN_eq_word htop rfl
  · exact encode_decodeE htop
  · exact encode_decodeF htop

theorem encode_decode (w : Word) : encode (decode w) = w := by
  unfold decode
  split_ifs with hcls hret
  · exact hcls.symm
  · exact hret.symm
  · exact encode_decodeTop w

theorem wellFormed_decode (w : Word) : WellFormed (decode w) = true := by
  cases hi : decode w with
  | sys nnn =>
    have henc : encode (.sys nnn) = w := hi ▸ encode_decode w
    have hne (m : Addr12) (hm : decode (encode (.sys m)) ≠ .sys m) : nnn ≠ m := by
      rintro rfl
      exact hm ((congrArg decode henc).trans hi)
    simp [WellFormed, hne 0x0E0#12 (by decide), hne 0x0EE#12 (by decide)]
  | unknown v =>
    obtain ⟨rfl, hw⟩ := (decode_eq_unknown_iff_isUnknownWord w v).mp hi
    exact hw
  | _ => rfl

/-- A field of a word is the word under the field's mask, shifted down. -/
theorem extractLsb'_toNat_eq_mask (w : Word) (start len : Nat) :
    (w.extractLsb' start len).toNat = (w.toNat &&& (2 ^ len - 1) <<< start) >>> start := by
  rw [Nat.shiftRight_and_distrib, Nat.shiftLeft_shiftRight, Nat.and_two_pow_sub_one_eq_mod, BitVec.extractLsb'_toNat]

end Sys2Proof

open Sys2Proof Sys2Proof.Machine

/-- Settles O1: format by format, the top nibble selects the class and the fields are read back. -/
theorem decodeOfEncodeIsTheInstruction : Obligations.DecodeOfEncodeIsTheInstruction := decode_encode

/-- Settles O2: a word is its fields put together in the format of its class. -/
theorem encodeOfDecodeIsTheWord : Obligations.EncodeOfDecodeIsTheWord :=
  fun w => ⟨encode_decode w, wellFormed_decode w⟩

/-- Settles O3: each word is the encoding of its instruction. -/
theorem specWordsDecode : Obligations.SpecWordsDecode := by
  have hword {w : Word} {i : Instr} (hi : WellFormed i = true) (hw : encode i = w) : decode w = i :=
    hw ▸ decode_encode i hi
  unfold Obligations.SpecWordsDecode
  refine ⟨?_, ?_, ?_, ?_, ?_, ?_, ?_, ?_, ?_, ?_, ?_, ?_, ?_, ?_, ?_, ?_, ?_, ?_⟩
  all_goals exact hword (by decide) (by decide)

/-- Settles O4: each field is an extract of the word, which is its mask shifted down. -/
theorem fieldsAreTheFixedMasks : Obligations.FieldsAreTheFixedMasks := by
  intro w
  refine ⟨extractLsb'_toNat_eq_mask w 0 12, extractLsb'_toNat_eq_mask w 8 4, extractLsb'_toNat_eq_mask w 4 4,
    extractLsb'_toNat_eq_mask w 0 8, extractLsb'_toNat_eq_mask w 0 4, ?_⟩
  rw [topNibble_toNat, Nat.shiftRight_eq_div_pow]
end

section
/-! PROOFS. Every step answers a next state, and the outcome of a step agrees with its meaning (60_exceptions.md R300 to
R302, R320). -/

namespace Sys2Proof.Machine

/-! The two conditions of a stack fault, and their opposites (R300). -/

theorem exec_call_of_full {s : State} (nnn : Addr12) (hsp : s.sp.val = 0) :
    exec (.call nnn) s = .next (s.takeFault .stackOverflow) := if_pos hsp

theorem exec_call_of_room {s : State} (nnn : Addr12) (hsp : s.sp.val ≠ 0) :
    exec (.call nnn) s = .next ((s.push (s.pc + 2#16)).setPc (zextAddr nnn)) := if_neg hsp

theorem exec_ret_of_empty {s : State} (hsp : s.sp.val = 16) :
    exec .ret s = .next (s.takeFault .stackUnderflow) := dif_neg (not_not.mpr hsp)

theorem exec_ret_of_pushed {s : State} (hsp : s.sp.val ≠ 16) :
    exec .ret s = .next ((s.pop hsp).setPc (s.top hsp)) := dif_pos hsp

theorem stepOutcome_call_of_full {s : State} (nnn : Addr12) (hsp : s.sp.val = 0) :
    stepOutcome (.call nnn) s = .faulted .stackOverflow := if_pos hsp

theorem stepOutcome_ret_of_empty {s : State} (hsp : s.sp.val = 16) :
    stepOutcome .ret s = .faulted .stackUnderflow := if_pos hsp

/-! Which instruction has which outcome (R320). -/

/-- Only LD Vx, K blocks, with no key pressed (44_timers_keys.md R250). -/
theorem exists_ldVxK_of_stepOutcome_blocked {i : Instr} {s : State} (h : stepOutcome i s = .blocked) :
    ∃ x, i = .ldVxK x ∧ s.lowestKey = none := by
  cases i with
  | ldVxK x =>
    refine ⟨x, rfl, ?_⟩
    cases hkey : s.lowestKey with
    | none => rfl
    | some k => simp [stepOutcome_ldVxK_of_lowestKey_some x hkey] at h
  | call nnn | ret =>
    simp only [stepOutcome] at h
    split at h <;> cases h
  | _ => cases h

/-- A step whose outcome is a fault takes that fault (R302). -/
theorem exec_of_stepOutcome_faulted {i : Instr} {s : State} {c : FaultCause} (h : stepOutcome i s = .faulted c) :
    exec i s = .next (s.takeFault c) := by
  cases i with
  | call nnn =>
    simp only [stepOutcome] at h
    split at h <;> cases h
    exact exec_call_of_full nnn ‹_›
  | ret =>
    simp only [stepOutcome] at h
    split at h <;> cases h
    exact exec_ret_of_empty ‹_›
  | ldVxK x =>
    simp only [stepOutcome] at h
    split at h <;> cases h
  | _ => cases h

/-- An Executed step leaves the fault record and the run state alone. -/
theorem exec_control_of_stepOutcome_executed {i : Instr} {s t : State} (ht : exec i s = .next t)
    (h : stepOutcome i s = .executed) : t.fault = s.fault ∧ t.running = s.running ∧ t.stopReason = s.stopReason := by
  rcases exec_fault_cases i s with ⟨⟨nnn, rfl⟩, hsp, -⟩ | ⟨rfl, hsp, -⟩ | ⟨u, hu, hkept⟩
  · simp [stepOutcome_call_of_full nnn hsp] at h
  · simp [stepOutcome_ret_of_empty hsp] at h
  · cases ht.symm.trans hu
    exact hkept

/-! Nothing on the way of a step can answer other than a next state (R301). -/

theorem exec_total (i : Instr) (s : State) : ∃ t, exec i s = .next t :=
  (nothingElseFaults i s).imp fun _ h => h.1

theorem stepAndAccount_total (s : State) : ∃ t, stepAndAccount s = .next t := by
  obtain ⟨t, ht⟩ := exec_total s.instrAtPc s
  exact ⟨t.account (stepOutcome s.instrAtPc s), by simp [stepAndAccount, stepInstr, ht]⟩

theorem tickLoop_total (s : State) : ∃ t, tickLoop s = .next t := by
  unfold tickLoop iteration
  split_ifs
  · exact ⟨_, rfl⟩
  · exact ⟨_, rfl⟩
  · exact stepAndAccount_total s
  · exact ⟨_, rfl⟩

theorem commandStep_total (s : State) : ∃ t, commandStep s = .next t := by
  obtain ⟨t, ht⟩ := stepAndAccount_total s
  unfold commandStep
  split_ifs
  · exact ⟨_, rfl⟩
  · exact ⟨_, rfl⟩
  · exact ⟨t.setReport .done, by rw [ht]; rfl⟩

theorem perform_total (a : Action) (s : State) : ∃ t, perform a s = .next t := by
  cases a with
  | iteration => exact tickLoop_total s
  | step => exact commandStep_total s
  | _ => exact ⟨_, rfl⟩

end Sys2Proof.Machine

open Sys2Proof Sys2Proof.Machine

/-- Settles O9: every instruction answers a next state, and so does every action built on it. -/
theorem everyStepAnswersANextState : Obligations.EveryStepAnswersANextState :=
  fun s => perform_total s.turn.1 s.turn.2

/-- Settles O15: the outcome on a full or an empty stack is the fault, and a fault is not accounted for. -/
theorem stackFaultsAreRecordedAndStopTheEngine : Obligations.StackFaultsAreRecordedAndStopTheEngine := by
  refine fun s => ⟨fun hsp nnn t ht => ?_, fun hsp t ht => ?_⟩ <;> subst ht
  · exact ⟨exec_call_of_full nnn hsp, by rw [stepOutcome_call_of_full nnn hsp]; rfl⟩
  · exact ⟨exec_ret_of_empty hsp, by rw [stepOutcome_ret_of_empty hsp]; rfl⟩

/-- Settles O16: outcome by outcome, what an instruction with that outcome leaves. -/
theorem stepOutcomeAgreesWithTheMeaning : Obligations.StepOutcomeAgreesWithTheMeaning := by
  intro i s t h
  refine ⟨fun hblocked => ?_, fun c hfaulted => ?_, fun hexecuted => ?_⟩
  · obtain ⟨x, rfl, hkey⟩ := exists_ldVxK_of_stepOutcome_blocked hblocked
    exact (Host.Outcome.next.inj ((exec_ldVxK_of_lowestKey_none x hkey).symm.trans h)).symm
  · exact (Host.Outcome.next.inj ((exec_of_stepOutcome_faulted hfaulted).symm.trans h)).symm
  · obtain ⟨hfault, hrun, hreason⟩ := exec_control_of_stepOutcome_executed h hexecuted
    rw [SameControl, hfault, hrun, hreason, exec_unwritten h]
    exact ⟨rfl, rfl, rfl, rfl, rfl, rfl, rfl, rfl⟩
end

section
/-! PROOFS. What each agent's action makes of the state, read off the action's definition (60_exceptions.md R320 to R357). -/

namespace Sys2Proof.Machine

/-- A step performs the action whose turn it is (R331). -/
theorem step_eq_perform {s r : State} {a : Action} (h : s.turn = (a, r)) : step s = perform a r := by
  simp [step, nextAction, h]

/-- Taking the turn changes the agenda and the schedule alone (log 2). -/
theorem State.turn_frame (s : State) :
    s.turn.2 = { s with agenda := s.turn.2.agenda, schedule := s.turn.2.schedule } := by
  rcases s.turn_cases with ⟨_, _, _, h⟩ | ⟨_, _, h⟩ | ⟨_, _, _, h⟩ <;> rw [h] <;> rfl

/-! The tick loop's turn (R306, R321). -/

theorem tickLoop_of_stopRequest {s : State} (hrun : s.running = true) (hreq : s.stopRequest = true) :
    tickLoop s = .next ((s.setStopRequest false).stopFor .stopRequested) := by
  simp [tickLoop, iteration, hrun, hreq]

theorem tickLoop_of_breakpoint {s : State} (hrun : s.running = true) (hreq : s.stopRequest = false)
    (hbp : s.pc ∈ s.breakpoints) : tickLoop s = .next (s.stopFor (.breakpoint s.pc)) := by
  simp [tickLoop, iteration, hrun, hreq, hbp]

theorem tickLoop_of_stopped {s : State} (hrun : s.running = false) : tickLoop s = .next s := by
  simp [tickLoop, hrun]

/-! The debugger's step where it runs nothing (R357, R304). -/

theorem commandStep_of_faulted {s : State} (hfault : s.fault ≠ none) :
    commandStep s = .next (s.setReport .engineFaulted) :=
  if_pos (Option.isSome_iff_ne_none.mpr hfault)

theorem commandStep_of_running {s : State} (hfault : s.fault = none) (hrun : s.running = true) :
    commandStep s = .next (s.setReport .ignored) := by
  simp [commandStep, hfault, hrun, answered]

/-- An executor step starts no engine: it leaves `running` alone or takes a fault (R302). -/
theorem exec_running_of_stopped {i : Instr} {s t : State} (h : exec i s = .next t) (hrun : s.running = false) :
    t.running = false := by
  rcases exec_fault_cases i s with ⟨-, -, hu⟩ | ⟨-, -, hu⟩ | ⟨u, hu, -, hkept, -⟩ <;> cases h.symm.trans hu
  · rfl
  · rfl
  · exact hkept.trans hrun

@[simp] theorem State.account_running (s : State) (o : StepOutcome) : (s.account o).running = s.running := by
  rcases s.account_cases o with h | ⟨_, h⟩ | h <;> rw [h] <;> rfl

/-- The bytes of a fetch, the higher half first, as one number (20_memory.md R74). -/
theorem State.fetch_toNat (s : State) :
    s.fetch.toNat = 0x100 * (s.byteAt (ea s.pc 0)).toNat + (s.byteAt (ea s.pc 1)).toNat := by
  have hlo := (s.byteAt (ea s.pc 1)).isLt
  rw [State.fetch, BitVec.toNat_append, ← Nat.shiftLeft_add_eq_or_of_lt hlo, Nat.shiftLeft_eq, Nat.mul_comm]

end Sys2Proof.Machine

open Sys2Proof Sys2Proof.Machine

/-- Settles O6: a fetch is the two bytes at PC and PC + 1, put together. -/
theorem fetchIsBigEndianModuloMemory : Obligations.FetchIsBigEndianModuloMemory :=
  fun s => ⟨s.fetch_toNat, rfl⟩

/-- Settles O7: with the bytes of `w` at PC the step executes what `w` decodes to. -/
theorem stepRunsTheDecodedInstruction : Obligations.StepRunsTheDecodedInstruction := by
  intro s r w hturn hrun hreq hbp hw
  have hinstr : s.instrAtPc = decode w := congrArg decode hw
  have hex : Executes s (decode w) := ⟨hinstr, .inl ⟨congrArg Prod.fst hturn, hrun, hreq, hbp⟩⟩
  obtain rfl : s.turn.2 = r := congrArg Prod.snd hturn
  obtain ⟨t, ht⟩ := exec_total (decode w) s.turn.2
  exact ⟨t, ht, by rw [step_of_executes hex ht, if_pos hrun]⟩

/-- Settles O8: a Stopped engine without a fault executes the instruction at PC, in the other states nothing runs. -/
theorem debuggerStepRunsOneInstruction : Obligations.DebuggerStepRunsOneInstruction := by
  intro s r hturn
  obtain rfl : s.turn.2 = r := congrArg Prod.snd hturn
  refine ⟨fun hfault hrun => ?_, fun hfault => ?_, fun hfault hrun => ?_⟩
  · have hex : Executes s s.instrAtPc := ⟨rfl, .inr ⟨congrArg Prod.fst hturn, hrun, hfault⟩⟩
    obtain ⟨t, ht⟩ := exec_total s.instrAtPc s.turn.2
    have htrun : t.running = false := exec_running_of_stopped ht (s.turn_running.trans hrun)
    refine ⟨t, _, ht, rfl, ?_, ?_⟩
    · rw [State.account_running, htrun]
    · rw [step_of_executes hex ht, if_neg (by simp [hrun])]
  · rw [step_eq_perform hturn]
    exact commandStep_of_faulted (by simpa using hfault)
  · rw [step_eq_perform hturn]
    exact commandStep_of_running (by simpa using hfault) (by simpa using hrun)

/-- Settles O55: the checks of an iteration in their order, each with the state it leaves. -/
theorem iterationTakesTheFirstEvent : Obligations.IterationTakesTheFirstEvent := by
  intro s r hturn
  rw [step_eq_perform hturn]
  obtain rfl : s.turn.2 = r := congrArg Prod.snd hturn
  refine ⟨fun hrun hreq => ?_, fun hrun hreq hbp => ?_, fun hrun => ?_⟩
  · exact tickLoop_of_stopRequest (by simpa using hrun) (by simpa using hreq)
  · rw [← s.turn_pc]
    exact tickLoop_of_breakpoint (by simpa using hrun) (by simpa using hreq) (by simpa using hbp)
  · exact tickLoop_of_stopped (by simpa using hrun)

/-- Settles O57: each command, branch by branch of its definition. -/
theorem runStopAndAddCommands : Obligations.RunStopAndAddCommands := by
  refine fun s => ⟨fun hfault => ?_, fun hfault hrun => ?_, fun hfault hrun => ?_, fun hrun => ?_, fun hrun => ?_,
    fun a => ⟨_, rfl, rfl, rfl⟩⟩
  · exact if_pos (Option.isSome_iff_ne_none.mpr hfault)
  · simp [State.run, hfault, hrun]
  · simp [State.run, State.start, hfault, hrun]
  · exact if_pos hrun
  · simp [State.stop, hrun]

/-- Settles O58: the three ways a turn comes about, and the answer that each action leaves. -/
theorem agendaActionsArePerformed : Obligations.AgendaActionsArePerformed := by
  refine fun s => ⟨fun a rest hagenda => ?_, fun hagenda hsched => ?_, fun n hagenda hsched => ?_, s.turn_frame,
    fun r => ?_⟩
  · simp [State.turn, hagenda, State.setAgenda]
  · simp [State.turn, hagenda, hsched]
  · simp [State.turn, hagenda, hsched, State.setSchedule]
  · refine ⟨?_, ?_, ?_, ?_, ?_, ?_, ?_, ?_, ?_, ?_, ?_⟩
    all_goals
      intros
      exact step_eq_perform ‹_›

/-- Settles O59: a take with its signal set and one without, and the fields of a dump. -/
theorem sinksAndDumpReadTheLiveState : Obligations.SinksAndDumpReadTheLiveState := by
  refine fun s => ⟨fun hsig => ?_, fun hsig => ?_, fun hsig => ⟨s.toneOn, ?_, ?_⟩, fun hsig => ?_, rfl⟩
  · exact if_pos hsig
  · simp [State.takeDisplay, hsig]
  · exact if_pos hsig
  · simp [State.toneOn, ← BitVec.toNat_inj]
  · simp [State.takeAudio, hsig]
end

section
/-! PROOFS. The writers of each field (10_state.md sections 3, 4, 6 and 7). -/

namespace Sys2Proof.Machine

/-- `MEM[EA(I)]`, `MEM[EA(I + 1)]`, `MEM[EA(I + 2)] <-` the hundreds, tens, units of `vx`. -/
def State.storeDigits (s : State) (vx : Byte) : State :=
  ((s.store (ea s.i 0) (hundreds vx)).store (ea s.i 1) (tens vx)).store (ea s.i 2) (units vx)

theorem exec_ldB_eq (x : RegIdx) (s : State) : exec (.ldB x) s = .next (s.storeDigits (s.reg x)).advance := rfl

/-- Storing the digits changes the memory only. -/
theorem State.storeDigits_eq (s : State) (vx : Byte) : s.storeDigits vx = { s with mem := (s.storeDigits vx).mem } := by
  simp only [State.storeDigits, State.store]

/-- The writers of I, of the stack and of memory (10_state.md R34, R38, R39, R42). -/
theorem exec_frame {i : Instr} {s t : State} (h : exec i s = .next t) :
    (t.i = s.i ∨ (∃ nnn, i = .ldI nnn) ∨ (∃ x, i = .addI x) ∨ ∃ x, i = .ldF x) ∧
      (SameStack s t ∨ i = .ret ∨ ∃ nnn, i = .call nnn) ∧
      (t.mem = s.mem ∨ (∃ x, i = .ldB x) ∨ ∃ x, i = .ldMemVx x) := by
  cases i with
  | ret =>
    simp only [exec, execRet] at h
    split at h <;> cases h <;> exact ⟨.inl rfl, .inr (.inl rfl), .inl rfl⟩
  | call nnn =>
    simp only [exec, execCall] at h
    split at h <;> cases h <;> exact ⟨.inl rfl, .inr (.inr ⟨nnn, rfl⟩), .inl rfl⟩
  | ldVxK x =>
    simp only [exec, execLdVxK] at h
    split at h <;> cases h <;> exact ⟨.inl rfl, .inl ⟨rfl, rfl⟩, .inl rfl⟩
  | ldI nnn => cases h; exact ⟨.inr (.inl ⟨nnn, rfl⟩), .inl ⟨rfl, rfl⟩, .inl rfl⟩
  | addI x => cases h; exact ⟨.inr (.inr (.inl ⟨x, rfl⟩)), .inl ⟨rfl, rfl⟩, .inl rfl⟩
  | ldF x => cases h; exact ⟨.inr (.inr (.inr ⟨x, rfl⟩)), .inl ⟨rfl, rfl⟩, .inl rfl⟩
  | ldB x =>
    cases (exec_ldB_eq x s).symm.trans h
    rw [State.storeDigits_eq]
    exact ⟨.inl rfl, .inl ⟨rfl, rfl⟩, .inr (.inl ⟨x, rfl⟩)⟩
  | ldMemVx x =>
    cases h
    rw [State.storeRegs_eq]
    exact ⟨.inl rfl, .inl ⟨rfl, rfl⟩, .inr (.inr ⟨x, rfl⟩)⟩
  | ldVxMem x =>
    cases h
    rw [State.loadRegs_eq]
    exact ⟨.inl rfl, .inl ⟨rfl, rfl⟩, .inl rfl⟩
  | _ => cases h; exact ⟨.inl rfl, .inl ⟨rfl, rfl⟩, .inl rfl⟩

end Sys2Proof.Machine

open Sys2Proof Sys2Proof.Machine

/-- Settles O52: the writers of each field, and the fault that only a CALL or a RET takes. -/
theorem instructionsWriteOnlyTheirFields : Obligations.InstructionsWriteOnlyTheirFields := by
  intro i s t h
  obtain ⟨hindex, hstack, hmem⟩ := exec_frame h
  refine ⟨hindex, hstack, hmem.imp_left fun hm a => congrArg (Memory.read a) hm, ?_, ?_⟩
  · rw [exec_unwritten h]
    exact ⟨rfl, rfl, rfl, rfl, rfl, rfl, rfl, rfl⟩
  · rcases exec_fault_cases i s with ⟨hcall, -⟩ | ⟨hret, -⟩ | ⟨u, hu, hkept⟩
    · exact .inr (.inr hcall)
    · exact .inr (.inl hret)
    · cases h.symm.trans hu
      exact .inl hkept
end

section
/-! PROOFS. What an action does to the run control, and the invariant that every step keeps (60_exceptions.md sections 1, 5
and 7). -/

namespace Sys2Proof.Machine

/-! ## The run control -/

/-- Everything is as before but the keys, the breakpoints, the signals and the report: no program, no engine state and no
fault is touched. -/
def KeepsRunControl (s t : State) : Prop :=
  t = { s with
    key := t.key, breakpoints := t.breakpoints, displaySignal := t.displaySignal, audioSignal := t.audioSignal,
    report := t.report }

/-- What an action makes of the run control (60_exceptions.md R306, R321, R343 to R357). -/
inductive ActionEffect (s : State) : Action → State → Prop
  /-- the sinks, the keys, the breakpoint commands, and every action that is refused, ignored or idle -/
  | kept {a : Action} {t : State} (h : KeepsRunControl s t) : ActionEffect s a t
  | started (hfault : s.fault = none) (hrun : s.running = false) : ActionEffect s .run (s.start.setReport .done)
  | requested (hrun : s.running = true) : ActionEffect s .stop ((s.setStopRequest true).setReport .done)
  | loaded {b : List Byte} (hrun : s.running = false) (hlen : b.length ≤ 0xE00) :
    ActionEffect s (.loadProgram (.bytes b)) ((s.loadImage b).setReport .done)
  | stoppedByRequest (hrun : s.running = true) (hreq : s.stopRequest = true) :
    ActionEffect s .iteration ((s.setStopRequest false).stopFor .stopRequested)
  | stoppedAtBreakpoint (hrun : s.running = true) (hreq : s.stopRequest = false) :
    ActionEffect s .iteration (s.stopFor (.breakpoint s.pc))
  | iterated {t : State} (hrun : s.running = true) (hreq : s.stopRequest = false)
    (h : stepAndAccount s = .next t) : ActionEffect s .iteration t
  | stepped {t : State} (hrun : s.running = false) (hfault : s.fault = none)
    (h : stepAndAccount s = .next t) : ActionEffect s .step (t.setReport .done)

theorem tickLoop_effect {s t : State} (h : tickLoop s = .next t) : ActionEffect s .iteration t := by
  cases hrun : s.running with
  | false =>
    cases (tickLoop_of_stopped hrun).symm.trans h
    exact .kept rfl
  | true =>
    cases hreq : s.stopRequest with
    | true =>
      cases (tickLoop_of_stopRequest hrun hreq).symm.trans h
      exact .stoppedByRequest hrun hreq
    | false =>
      by_cases hbp : s.pc ∈ s.breakpoints
      · cases (tickLoop_of_breakpoint hrun hreq hbp).symm.trans h
        exact .stoppedAtBreakpoint hrun hreq
      · exact .iterated hrun hreq (by simpa [tickLoop, iteration, hrun, hreq, hbp] using h)

theorem commandStep_effect {s t : State} (h : commandStep s = .next t) : ActionEffect s .step t := by
  by_cases hfault : s.fault = none
  case neg =>
    cases (commandStep_of_faulted hfault).symm.trans h
    exact .kept rfl
  case pos =>
    cases hrun : s.running with
    | true =>
      cases (commandStep_of_running hfault hrun).symm.trans h
      exact .kept rfl
    | false =>
      obtain ⟨w, hw⟩ := stepAndAccount_total s
      simp only [commandStep, hfault, hrun, hw, answered] at h
      cases h
      exact .stepped hrun hfault hw

theorem perform_effect {a : Action} {s t : State} (h : perform a s = .next t) : ActionEffect s a t := by
  cases a with
  | iteration => exact tickLoop_effect h
  | step => exact commandStep_effect h
  | run =>
    simp only [perform, State.run] at h
    split_ifs at h with hfault hrun <;> cases h
    · exact .kept rfl
    · exact .kept rfl
    · exact .started (by simpa using hfault) (by simpa using hrun)
  | stop =>
    simp only [perform, State.stop] at h
    split_ifs at h with hrun <;> cases h
    · exact .requested hrun
    · exact .kept rfl
  | loadProgram image =>
    simp only [perform, answered] at h
    rcases s.loadProgram_cases image with ⟨r, hr⟩ | ⟨hrun, b, rfl, hlen, hr⟩ <;> rw [hr] at h <;> cases h
    · exact .kept rfl
    · exact .loaded hrun hlen
  | takeDisplay | takeAudio | deleteBreakpoint _ =>
    simp only [perform, State.takeDisplay, State.takeAudio, State.deleteBreakpoint] at h
    split_ifs at h <;> cases h <;> exact .kept rfl
  | setKeyState _ _ | dump | addBreakpoint _ | listBreakpoints | clearBreakpoints => cases h; exact .kept rfl

/-! ## The invariant -/

section
variable {s t : State} (hs : Inv s)

/-- A state without a fault is good when its memory is canonical and its control fields agree with that. -/
theorem Inv.of_unfaulted (hmem : Memory.wf t.mem = true) (hfault : t.fault = none)
    (hreq : t.stopRequest = true → t.running = true) (hreason : t.stopReason ≠ some .faulted) : Inv t where
  memCanonical := hmem
  runningUnfaulted _ := hfault
  requestOnlyRunning := hreq
  faultRecorded f hf := by simp [hfault] at hf
  faultedHasRecord h := absurd h hreason

include hs

theorem Inv.stopReason_ne_faulted (hfault : s.fault = none) : s.stopReason ≠ some .faulted := by
  intro h
  simpa [hfault] using hs.faultedHasRecord h

theorem Inv.stopRequest_of_stopped (hrun : s.running = false) : s.stopRequest = false := by
  by_contra h
  simp [hs.requestOnlyRunning (by simpa using h)] at hrun

/-- The invariant speaks of none of the fields that such an action touches. -/
theorem Inv.of_keepsRunControl (h : KeepsRunControl s t) : Inv t := by
  rw [h]
  exact { hs with }

theorem Inv.turn : Inv s.turn.2 := by
  rw [s.turn_frame]
  exact { hs with }

theorem Inv.account (o : StepOutcome) : Inv (s.account o) := by
  rcases s.account_cases o with h | ⟨_, h⟩ | h <;> rw [h]
  · exact hs
  all_goals
    exact { hs with }

/-- A fault that is taken on its condition is recorded as the invariant says (R302). -/
theorem Inv.takeFault {c : FaultCause} (hreq : s.stopRequest = false) (hc : FaultCondition s c) :
    Inv (s.takeFault c) where
  memCanonical := hs.memCanonical
  runningUnfaulted h := nomatch h
  requestOnlyRunning h := by simp [hreq] at h
  faultRecorded f hf := by
    cases hf
    exact ⟨rfl, rfl, hc⟩
  faultedHasRecord _ := rfl

theorem Inv.loadImage {b : List Byte} (hlen : b.length ≤ 0xE00) : Inv (s.loadImage b) := by
  refine .of_unfaulted ?_ rfl (fun h => nomatch h) (fun h => nomatch h)
  exact Memory.wf_writeList _ _ _ (by simp only [Config.programBase]; omega)
    (Memory.wf_clearProgram _ hs.memCanonical)

end

/-- Every instruction keeps the memory canonical: it stores at effective addresses (20_memory.md R75). -/
theorem wf_of_exec {i : Instr} {s t : State} (h : exec i s = .next t) (hs : Memory.wf s.mem = true) :
    Memory.wf t.mem = true := by
  obtain ⟨-, -, hmem | ⟨x, rfl⟩ | ⟨x, rfl⟩⟩ := exec_frame h
  · rwa [hmem]
  · cases h
    exact Memory.wf_write _ _ _ (ea_lt _ _) (Memory.wf_write _ _ _ (ea_lt _ _) (Memory.wf_write _ _ _ (ea_lt _ _) hs))
  · cases h
    exact s.wf_storeRegs _ hs

/-- An executor step of an engine that holds no fault and no stop request: the two faults are taken on their conditions,
every other step leaves the run control alone. -/
theorem inv_of_stepAndAccount {s t : State} (hs : Inv s) (hfault : s.fault = none) (hreq : s.stopRequest = false)
    (h : stepAndAccount s = .next t) : Inv t := by
  obtain ⟨u, hu, rfl⟩ := stepAndAccount_cases h
  refine Inv.account ?_ _
  rcases exec_fault_cases s.instrAtPc s with ⟨-, hsp, hv⟩ | ⟨-, hsp, hv⟩ | ⟨v, hv, hvfault, hvrun, hvreason⟩ <;>
    cases hu.symm.trans hv
  · exact hs.takeFault hreq hsp
  · exact hs.takeFault hreq hsp
  · refine .of_unfaulted (wf_of_exec hu hs.memCanonical) (hvfault.trans hfault) ?_ ?_
    · rw [exec_unwritten hu, hreq]
      exact fun hc => nomatch hc
    · rw [hvreason]
      exact hs.stopReason_ne_faulted hfault

theorem Inv.perform {a : Action} {s t : State} (hs : Inv s) (h : perform a s = .next t) : Inv t := by
  cases perform_effect h with
  | kept hk => exact hs.of_keepsRunControl hk
  | started hfault hrun =>
    exact .of_unfaulted hs.memCanonical hfault (fun _ => rfl) (hs.stopReason_ne_faulted hfault)
  | requested hrun =>
    have hfault := hs.runningUnfaulted hrun
    exact .of_unfaulted hs.memCanonical hfault (fun _ => hrun) (hs.stopReason_ne_faulted hfault)
  | loaded hrun hlen => exact (hs.loadImage hlen).of_keepsRunControl rfl
  | stoppedByRequest hrun hreq =>
    exact .of_unfaulted hs.memCanonical (hs.runningUnfaulted hrun) (fun hc => nomatch hc) (fun hc => nomatch hc)
  | stoppedAtBreakpoint hrun hreq =>
    exact .of_unfaulted hs.memCanonical (hs.runningUnfaulted hrun) (fun hc => by simp [hreq] at hc)
      (fun hc => nomatch hc)
  | iterated hrun hreq hstep => exact inv_of_stepAndAccount hs (hs.runningUnfaulted hrun) hreq hstep
  | stepped hrun hfault hstep =>
    exact (inv_of_stepAndAccount hs hfault (hs.stopRequest_of_stopped hrun) hstep).of_keepsRunControl rfl

end Sys2Proof.Machine

open Sys2Proof Sys2Proof.Machine

/-- Settles O18: taking the turn keeps the invariant, and so does every effect of an action. -/
theorem everyStepKeepsTheInvariant : Obligations.EveryStepKeepsTheInvariant :=
  fun _ _ hs h => hs.turn.perform h

/-- Settles O19: at power-on the memory list is empty and there is no fault. -/
theorem powerOnMeetsTheInvariant : Obligations.PowerOnMeetsTheInvariant :=
  .of_unfaulted rfl rfl (fun h => nomatch h) (fun h => nomatch h)

/-- Settles O17: a faulted engine is Stopped and holds a fault, so that no step of it executes an instruction. -/
theorem faultIsClearedOnlyByAProgramLoad : Obligations.FaultIsClearedOnlyByAProgramLoad := by
  intro s t f hs hf h
  rcases step_cases h with hq | ⟨k, pressed, -, rfl⟩ | ⟨b, hload, rfl⟩ | ⟨⟨-, hrun⟩, -⟩
  · have hfault : t.fault = s.fault := (congrArg State.fault hq).trans s.turn_fault
    have hpc : t.pc = s.pc := (congrArg State.pc hq).trans s.turn_pc
    exact .inl ⟨hfault.trans hf, s.reg_of_v_eq t ((congrArg State.v hq).trans s.turn_v), hpc⟩
  · exact .inl ⟨s.turn_fault.trans hf, s.reg_turn, s.turn_pc⟩
  · exact .inr ⟨rfl, hload⟩
  · rcases hrun with ⟨-, hrun, -⟩ | ⟨-, -, hfault⟩
    · simp [hs.runningUnfaulted hrun] at hf
    · simp [hfault] at hf
end

section
/-! PROOFS. A pending stop request in a fair run (60_exceptions.md sections 5 and 7), and nine Executed steps (section 4). -/

namespace Sys2Proof.Machine

/-! ## A pending stop request -/

/-- The engine is Running with a stop request that it has not consumed. -/
def StopPending (s : State) : Prop := s.running = true ∧ s.stopRequest = true

/-- While a request is pending, no turn of whatever agent executes an instruction (R306, R357). -/
theorem StopPending.not_executes {s : State} (hs : StopPending s) (i : Instr) : ¬ Executes s i := by
  obtain ⟨hrun, hreq⟩ := hs
  rintro ⟨-, ⟨-, -, hno, -⟩ | ⟨-, hno, -⟩⟩
  · simp [hreq] at hno
  · simp [hrun] at hno

/-- Every turn but the tick loop's leaves the request pending, and PC and the cycle count where they are. -/
theorem StopPending.next {s t : State} (hs : StopPending s) (hturn : s.turn.1 ≠ .iteration) (h : step s = .next t) :
    StopPending t ∧ t.pc = s.pc ∧ t.cycles = s.cycles := by
  obtain ⟨hrun, hreq⟩ : s.turn.2.running = true ∧ s.turn.2.stopRequest = true := by simpa [StopPending] using hs
  rw [← s.turn_pc, ← s.turn_cycles]
  generalize hr : s.turn.2 = r at hrun hreq
  generalize ha : s.turn.1 = a at hturn
  have hp : perform a r = .next t := by simpa [step, nextAction, hr, ha] using h
  cases perform_effect hp with
  | kept hk => rw [hk]; exact ⟨⟨hrun, hreq⟩, rfl, rfl⟩
  | requested _ => exact ⟨⟨hrun, rfl⟩, rfl, rfl⟩
  | started _ hno | loaded hno _ | stepped hno _ _ => simp [hrun] at hno
  | stoppedByRequest _ _ | stoppedAtBreakpoint _ _ | iterated _ _ _ => exact absurd rfl hturn

/-- The tick loop's turn consumes the request and stops the engine (R306). -/
theorem StopPending.next_of_iteration {s t : State} (hs : StopPending s) (hturn : s.turn.1 = .iteration)
    (h : step s = .next t) :
    t.running = false ∧ t.stopReason = some .stopRequested ∧ t.stopRequest = false ∧ t.pc = s.pc ∧
      t.cycles = s.cycles := by
  have ht : t = (s.turn.2.setStopRequest false).stopFor .stopRequested := by
    have hp := tickLoop_of_stopRequest (s := s.turn.2) (by simpa using hs.1) (by simpa using hs.2)
    rw [step, nextAction, hturn] at h
    exact Host.Outcome.next.inj (h.symm.trans hp)
  simp [ht]

/-- Up to the tick loop's first turn the request stays pending. -/
theorem StopPending.run {r : Nat → State} (hr : Run r) (h0 : StopPending (r 0)) {n : Nat}
    (hturn : ∀ m < n, (r m).turn.1 ≠ .iteration) :
    StopPending (r n) ∧ (r n).pc = (r 0).pc ∧ (r n).cycles = (r 0).cycles := by
  induction n with
  | zero => exact ⟨h0, rfl, rfl⟩
  | succ n ih =>
    obtain ⟨hn, hpc, hcycles⟩ := ih fun m hm => hturn m (by omega)
    obtain ⟨hn', hpc', hcycles'⟩ := hn.next (hturn n (by omega)) (hr n)
    exact ⟨hn', hpc'.trans hpc, hcycles'.trans hcycles⟩

/-- Fairness gives the tick loop a turn: without one the engine would be Running for ever (R331). -/
theorem StopPending.exists_iteration {r : Nat → State} (hr : Run r) (hfair : Fair r) (h0 : StopPending (r 0)) :
    ∃ n, (r n).turn.1 = .iteration := by
  by_contra hno
  push Not at hno
  obtain ⟨m, -, hm⟩ := hfair 0
  obtain ⟨⟨hrun, -⟩, -⟩ := h0.run hr (n := m) fun k _ => hno k
  exact hno m (hm hrun)

/-! ## Nine Executed steps -/

/-- `n` Executed steps, at most nine, from any point of a window: they are counted, and where they pass the end of the
window there is one tick (R322, R326). -/
theorem State.iterate_countCycle (s : State) {n : Nat} (hn : n ≤ 9) :
    ∃ c : Fin 9, (s.cycles.val + n = c.val ∧ State.countCycle^[n] s = s.setCycles c) ∨
      (s.cycles.val + n = c.val + 9 ∧ State.countCycle^[n] s = (s.setCycles c).tick) := by
  induction n with
  | zero => exact ⟨s.cycles, .inl ⟨rfl, rfl⟩⟩
  | succ n ih =>
    rw [Function.iterate_succ_apply']
    obtain ⟨c, ⟨hc, hn'⟩ | ⟨hc, hn'⟩⟩ := ih (by omega) <;> rw [hn']
    · rcases (s.setCycles c).countCycle_cases with ⟨-, c', hc', h⟩ | ⟨h8, h⟩ <;> rw [h]
      · rw [State.setCycles_cycles] at hc'
        exact ⟨c', .inl ⟨by omega, rfl⟩⟩
      · rw [State.setCycles_cycles] at h8
        exact ⟨0, .inr ⟨by rw [Fin.val_zero]; omega, rfl⟩⟩
    · rcases (s.setCycles c).tick.countCycle_cases with ⟨-, c', hc', h⟩ | ⟨h8, -⟩
      · rw [State.tick_cycles, State.setCycles_cycles] at hc'
        exact ⟨c', .inr ⟨by omega, by rw [h]; rfl⟩⟩
      · -- a second end of the window would be a tenth step at least
        rw [State.tick_cycles, State.setCycles_cycles] at h8
        have := s.cycles.isLt
        omega

/-- Nine Executed steps are one tick, and leave the count of the window where it was. -/
theorem State.iterate_countCycle_nine (s : State) : State.countCycle^[9] s = s.tick := by
  obtain ⟨c, ⟨hc, -⟩ | ⟨hc, h⟩⟩ := s.iterate_countCycle le_rfl
  · have := c.isLt
    omega
  · obtain rfl : c = s.cycles := Fin.ext (by omega)
    exact h

end Sys2Proof.Machine

open Sys2Proof Sys2Proof.Machine

/-- Settles O60: the stop is at the tick loop's first turn, which fairness gives. -/
theorem pendingStopEndsEveryFairRun : Obligations.PendingStopEndsEveryFairRun := by
  intro r hr hfair hrun hreq
  have h0 : StopPending (r 0) := ⟨hrun, hreq⟩
  have hex := h0.exists_iteration hr hfair
  have hpending : ∀ m ≤ Nat.find hex, StopPending (r m) ∧ (r m).pc = (r 0).pc ∧ (r m).cycles = (r 0).cycles :=
    fun m hm => h0.run hr fun k hk => Nat.find_min hex (hk.trans_le hm)
  obtain ⟨hn, hpc, hcycles⟩ := hpending _ le_rfl
  obtain ⟨hstop, hreason, hcleared, hpc', hcycles'⟩ := hn.next_of_iteration (Nat.find_spec hex) (hr _)
  refine ⟨Nat.find hex, fun m hm => ?_, hstop, hreason, hcleared, hpc'.trans hpc, hcycles'.trans hcycles⟩
  obtain ⟨hm, -⟩ := hpending m hm
  exact ⟨hm.1, hm.2, hm.not_executes⟩

/-- Settles O11: counting a cycle by its two cases, and nine of them as one tick. -/
theorem nineExecutedStepsAreOneTick : Obligations.NineExecutedStepsAreOneTick := by
  constructor
  · intro s
    refine ⟨rfl, fun c => rfl, fun hlt => ?_, fun h8 => ?_⟩
    · rcases s.countCycle_cases with ⟨-, c, hc, h⟩ | ⟨h8, -⟩
      · exact ⟨c, hc, h⟩
      · omega
    · rcases s.countCycle_cases with ⟨hlt, -⟩ | ⟨-, h⟩
      · omega
      · exact h
  · intro s
    exact ⟨s.tick, s.iterate_countCycle_nine, rfl, countDown_toNat s.dt, countDown_toNat s.st, rfl, rfl, rfl,
      fun _ => rfl, fun _ => rfl⟩
end

section
/-! PROOFS. Power-on and program load (10_state.md section 8; 20_memory.md sections 1 and 4; 60_exceptions.md section 6). -/

namespace Sys2Proof.Machine

theorem State.reset_reg : ∀ r, State.reset.reg r = 0#8 := by decide

theorem State.reset_stack : ∀ j : Fin 16, State.reset.stack[j] = 0#16 := by decide

/-- The memory after a load: the font region as it was, the image, zeros (20_memory.md R81). -/
theorem State.byteAt_loadImage (s : State) (b : List Byte) (a : Nat) :
    (s.loadImage b).byteAt a =
      if 0x200 ≤ a ∧ a < 0x200 + b.length then b.getD (a - 0x200) 0#8
      else if a < 0x200 then s.byteAt a else 0#8 := by
  have hread : (s.loadImage b).byteAt a = Memory.read a (Memory.writeList 0x200 b (Memory.clearProgram s.mem)) := rfl
  rw [hread, Memory.read_writeList, Memory.read_clearProgram]
  rfl

theorem State.loadProgram_of_fits {s : State} {b : List Byte} (hrun : s.running = false) (hlen : b.length ≤ 0xE00) :
    s.loadProgram (.bytes b) = (s.loadImage b, .done) := by
  have hfits : ¬ Config.maxImage < b.length := Nat.not_lt.mpr hlen
  simp [State.loadProgram, hrun, hfits]

theorem State.loadProgram_of_too_large {s : State} {b : List Byte} (hrun : s.running = false)
    (hlen : 0xE00 < b.length) :
    s.loadProgram (.bytes b) = (s, .loadTooLarge) := by
  have hlarge : Config.maxImage < b.length := hlen
  simp [State.loadProgram, hrun, hlarge]

end Sys2Proof.Machine

open Sys2Proof Sys2Proof.Machine

/-- Settles O20: the registers, the stack and the keys entry by entry, the other fields as they are written. -/
theorem powerOnState : Obligations.PowerOnState :=
  ⟨State.reset_reg, rfl, rfl, rfl, State.reset_stack, rfl, rfl, Pixmap.get_clear, State.reset_keyDown, rfl, rfl, rfl,
    rfl, rfl, rfl, rfl, rfl⟩

/-- Settles O21: the 80 bytes of the font, and what an unlisted address after them reads as. -/
theorem fontAtPowerOn : Obligations.FontAtPowerOn :=
  ⟨by decide, Memory.unlisted_of_le⟩

/-- Settles O22: the memory is that of `byteAt_loadImage`, the other fields are those of the reset. -/
theorem programLoadResetsAndCopies : Obligations.ProgramLoadResetsAndCopies := by
  refine ⟨fun s b hrun hlen => ?_, fun s image hrun => if_pos hrun, fun s hrun => by simp [State.loadProgram, hrun],
    fun s b hrun hlen => State.loadProgram_of_too_large hrun hlen⟩
  refine ⟨s.loadImage b, State.loadProgram_of_fits hrun hlen, fun a ha => ?_, fun k hk => ?_, fun a ha => ?_,
    State.reset_reg, rfl, rfl, rfl, State.reset_stack, rfl, rfl, Pixmap.get_clear, State.reset_keyDown, rfl, rfl, rfl,
    rfl, rfl, rfl, rfl, rfl⟩ <;> rw [State.byteAt_loadImage]
  · rw [if_neg (by omega), if_pos ha]
  · rw [if_pos (by omega), Nat.add_sub_cancel_left]
  · rw [if_neg (by omega), if_neg (by omega)]
end

section
/-! PROOFS. Control flow (40_control_flow.md): SYS, the jumps, the call stack, the skips. -/

namespace Sys2Proof.Machine

/-! PC and the frame of a jump and of a skip. -/

theorem zextAddr_toNat (nnn : Addr12) : (zextAddr nnn).toNat = nnn.toNat := by
  have := nnn.isLt
  simp only [zextAddr, BitVec.toNat_setWidth]
  omega

/-- A 12-bit address and a byte have no sum of 2^16 or more. -/
theorem zextAddr_add_zextByte_toNat (nnn : Addr12) (b : Byte) :
    (zextAddr nnn + zextByte b).toNat = nnn.toNat + b.toNat := by
  have := nnn.isLt
  have := b.isLt
  simp only [BitVec.toNat_add, zextAddr, zextByte, BitVec.toNat_setWidth]
  omega

/-- A new PC leaves everything but PC alone. -/
theorem State.sameButPc_setPc (s : State) (w : Word) : SameButPc s (s.setPc w) := by
  simp [SameButPc, SameButRegsPc, SameButRegsPcDraws, SameRegs, SameStack, SameTimers, SameMem, SameKeys,
    SameControl, SameModel, State.byteAt]

theorem State.sameButPc_skipIf (s : State) (c : Bool) : SameButPc s (s.skipIf c) := s.sameButPc_setPc _

/-- A skip moves PC by two words or by one, modulo 2^16 (R150). -/
theorem State.pcBy_skipIf (s : State) (c : Bool) : PcBy (if c then 4 else 2) s (s.skipIf c) := by
  cases c <;> exact BitVec.toNat_add s.pc _

theorem State.pcBy_skipIf_of_iff {p : Prop} [Decidable p] {c : Bool} (s : State) (h : c = true ↔ p) :
    PcBy (if p then 4 else 2) s (s.skipIf c) := by
  have hskip := s.pcBy_skipIf c
  simpa only [h] using hskip

theorem State.pcBy_skipIf_of_iff_not {p : Prop} [Decidable p] {c : Bool} (s : State) (h : c = true ↔ ¬ p) :
    PcBy (if p then 2 else 4) s (s.skipIf c) := by
  have hskip := s.pcBy_skipIf c
  simpa only [h, ite_not] using hskip

/-- The key that a register selects is its low nibble (44_timers_keys.md R243). -/
theorem keyIndex_toNat (vx : Byte) : (keyIndex vx).toNat = vx.toNat % 16 := by
  rw [keyIndex, BitVec.toNat_setWidth, BitVec.toNat_and]
  change (vx.toNat &&& 2 ^ 4 - 1) % 2 ^ 4 = _
  rw [Nat.and_two_pow_sub_one_eq_mod, Nat.mod_mod]

/-! The call stack. -/

/-- A push writes the slot below SP and keeps every other one (10_state.md R38, R39). -/
theorem State.stack_push {s : State} (w : Word) (hsp : s.sp.val ≠ 0) (j : Fin 16) :
    (s.push w).stack[j] = if j.val + 1 = s.sp.val then w else s.stack[j] := by
  have hslot : s.sp.val - 1 = j.val ↔ j.val + 1 = s.sp.val := by omega
  simp [State.push, Vector.getElem_set, hslot]

/-- A state that differs in the stack alone, and a new PC. -/
theorem State.sameButStackPc_setPc_of_stack {s t : State} (h : t = { s with sp := t.sp, stack := t.stack }) (w : Word) :
    SameButStackPc s (t.setPc w) := by
  rw [h]
  obtain ⟨hregs, ⟨hi, -, htimers, hmem, hpix, hkeys, hcontrol, hmodel⟩, hdraws⟩ :=
    ({ s with sp := t.sp, stack := t.stack } : State).sameButPc_setPc w
  exact ⟨hregs, hi, htimers, hmem, hpix, hkeys, hcontrol, hmodel, hdraws⟩

/-- A RET right after a CALL pops what the CALL pushed (40_control_flow.md R141). -/
theorem exec_ret_of_call {s : State} (nnn : Addr12) (hsp : s.sp.val ≠ 0) :
    exec .ret ((s.push (s.pc + 2#16)).setPc (zextAddr nnn)) =
      .next { s with pc := s.pc + 2#16, stack := (s.push (s.pc + 2#16)).stack } := by
  have hlt := s.sp.isLt
  have hpushed : ((s.push (s.pc + 2#16)).setPc (zextAddr nnn)).sp.val ≠ 16 := by
    simp only [State.setPc_sp, State.push_sp_val]
    omega
  have hback : s.sp.val - 1 + 1 = s.sp.val := by omega
  rw [exec_ret_of_pushed hpushed]
  simp [State.pop, State.top, State.push, State.setPc, hback]

end Sys2Proof.Machine

open Sys2Proof Sys2Proof.Machine

/-- Settles O23: SYS is an advance. -/
theorem sysOnlyAdvances : Obligations.SysOnlyAdvances :=
  fun _ s => ⟨decode_formatA_sys, _, rfl, s.pcBy_advance, s.sameButPc_advance⟩

/-- Settles O24: each jump is a new PC, and the sum of JP V0 does not wrap. -/
theorem jumpsSetPc : Obligations.JumpsSetPc := fun nnn s =>
  ⟨decode_encode (.jp nnn) rfl, decode_encode (.jpV0 nnn) rfl, ⟨_, rfl, zextAddr_toNat nnn, s.sameButPc_setPc _⟩,
    _, rfl, zextAddr_add_zextByte_toNat nnn _, s.sameButPc_setPc _⟩

/-- Settles O25: with room on the stack, a CALL is a push and a new PC. -/
theorem callPushesTheReturnAddress : Obligations.CallPushesTheReturnAddress := by
  refine fun nnn s => ⟨decode_encode (.call nnn) rfl, fun hsp => ⟨_, exec_call_of_room nnn hsp, ?_, ?_, ?_, ?_⟩⟩
  · exact zextAddr_toNat nnn
  · exact Nat.sub_add_cancel (Nat.pos_of_ne_zero hsp)
  · exact State.stack_push _ hsp
  · exact State.sameButStackPc_setPc_of_stack (t := s.push (s.pc + 2#16)) rfl (zextAddr nnn)

/-- Settles O26: with an entry on the stack, a RET is a pop and a new PC. -/
theorem retPopsTheReturnAddress : Obligations.RetPopsTheReturnAddress := by
  refine ⟨decode_encode .ret rfl, fun s j hj => ?_⟩
  have hsp : s.sp.val ≠ 16 := by omega
  refine ⟨_, exec_ret_of_pushed hsp, ?_, rfl, rfl, State.sameButStackPc_setPc_of_stack (t := s.pop hsp) rfl (s.top hsp)⟩
  simp [State.top, hj]

/-- Settles O27: the value that the RET pops is the one that the CALL pushed. -/
theorem retUndoesCall : Obligations.RetUndoesCall := fun nnn s hsp =>
  ⟨_, _, exec_call_of_room nnn hsp, exec_ret_of_call nnn hsp, s.pcBy_advance, rfl,
    State.sameButStackPc_setPc_of_stack (t := { s with stack := (s.push (s.pc + 2#16)).stack }) rfl (s.pc + 2#16)⟩

/-- Settles O28: each is a skip, on equality and on inequality. -/
theorem skipsOnAnImmediate : Obligations.SkipsOnAnImmediate := fun x kk s =>
  ⟨decode_encode (.seByte x kk) rfl, decode_encode (.sneByte x kk) rfl,
    ⟨_, rfl, s.pcBy_skipIf_of_iff beq_iff_eq, s.sameButPc_skipIf _⟩,
    _, rfl, s.pcBy_skipIf_of_iff_not bne_iff_ne, s.sameButPc_skipIf _⟩

/-- Settles O29: each is a skip, on equality and on inequality, and does not read the low nibble. -/
theorem skipsOnTwoRegisters : Obligations.SkipsOnTwoRegisters := fun x y n s =>
  ⟨decode_encode (.seReg x y n) rfl, decode_encode (.sneReg x y n) rfl,
    ⟨_, rfl, s.pcBy_skipIf_of_iff beq_iff_eq, s.sameButPc_skipIf _⟩,
    _, rfl, s.pcBy_skipIf_of_iff_not bne_iff_ne, s.sameButPc_skipIf _⟩

/-- Settles O30: each is a skip on the key of the low nibble. -/
theorem skipsOnAKey : Obligations.SkipsOnAKey := by
  intro x k s hk
  obtain rfl : keyIndex (s.reg x) = k := BitVec.eq_of_toNat_eq ((keyIndex_toNat _).trans hk)
  exact ⟨decode_encode (.skp x) rfl, decode_encode (.sknp x) rfl,
    ⟨_, rfl, s.pcBy_skipIf_of_iff Iff.rfl, s.sameButPc_skipIf _⟩,
    _, rfl, s.pcBy_skipIf_of_iff_not (by simp), s.sameButPc_skipIf _⟩
end

section
/-! PROOFS. Register writes: copies, logic, sums, shifts, RND, the timers and the key wait (41_alu.md; 44_timers_keys.md). -/

namespace Sys2Proof.Machine

/-! One register write and an advance: the shape of every instruction that writes Vx alone. -/

theorem State.setReg_advance_law (s : State) (x : RegIdx) (b : Byte) :
    (∀ r, (s.setReg x b).advance.reg r = if r = x then b else s.reg r) ∧ PcBy 2 s (s.setReg x b).advance ∧
      SameButRegsPc s (s.setReg x b).advance :=
  ⟨s.reg_setReg x b, (s.setReg x b).pcBy_advance, s.sameButRegsPc_setReg_advance x b⟩

/-- The same law with the registers as numbers. -/
theorem State.setReg_advance_law_toNat (s : State) (x : RegIdx) {b : Byte} {m : Nat} (hb : b.toNat = m) :
    (∀ r, ((s.setReg x b).advance.reg r).toNat = if r = x then m else (s.reg r).toNat) ∧
      PcBy 2 s (s.setReg x b).advance ∧ SameButRegsPc s (s.setReg x b).advance := by
  obtain ⟨hreg, hframe⟩ := s.setReg_advance_law x b
  refine ⟨fun r => ?_, hframe⟩
  rw [hreg, apply_ite BitVec.toNat, hb]

/-- Two register writes and an advance, the second of which wins: the shape of the sums, where the flag is last, and of the
shifts, where Vx is last (10_state.md R33). -/
theorem State.setReg_setReg_advance_law_toNat (s : State) (x y : RegIdx) {b c : Byte} {m n : Nat} (hb : b.toNat = m)
    (hc : c.toNat = n) :
    (∀ r, (((s.setReg x b).setReg y c).advance.reg r).toNat =
      if r = y then n else if r = x then m else (s.reg r).toNat) ∧
      PcBy 2 s ((s.setReg x b).setReg y c).advance ∧ SameButRegsPc s ((s.setReg x b).setReg y c).advance := by
  refine ⟨fun r => ?_, ((s.setReg x b).setReg y c).pcBy_advance, (s.setReg x b).sameButRegsPc_setReg_advance y c⟩
  rw [State.reg_advance, State.reg_setReg, State.reg_setReg, apply_ite BitVec.toNat, apply_ite BitVec.toNat, hb, hc]

/-! The values of the shifts (41_alu.md R180, R182). -/

theorem ushiftRight_one_toNat (b : Byte) : (b >>> 1).toNat = b.toNat / 2 := by
  rw [BitVec.toNat_ushiftRight, Nat.shiftRight_eq_div_pow]

theorem shiftLeft_one_toNat (b : Byte) : (b <<< 1).toNat = b.toNat * 2 % 256 := by
  rw [BitVec.toNat_shiftLeft, Nat.shiftLeft_eq]

theorem shiftedOutRight_toNat (b : Byte) : (shiftedOutRight b).toNat = b.toNat % 2 := by
  rw [shiftedOutRight, BitVec.toNat_and]
  exact Nat.and_one_is_mod b.toNat

theorem shiftedOutLeft_toNat (b : Byte) : (shiftedOutLeft b).toNat = b.toNat / 128 := by
  have hb := b.isLt
  have hout := shiftedOutRight_toNat (b >>> 7)
  rw [BitVec.toNat_ushiftRight, Nat.shiftRight_eq_div_pow] at hout
  rw [shiftedOutLeft, ← shiftedOutRight, hout]
  omega

/-- A pressed key below which none is pressed is the lowest one. -/
theorem State.lowestKey_eq_some {s : State} {k : Nibble} (hdown : s.keyDown k = true)
    (hlow : ∀ j : Nibble, j.toNat < k.toNat → s.keyDown j = false) : s.lowestKey = some k := by
  obtain ⟨j, hj⟩ := State.exists_lowestKey_of_keyDown hdown
  obtain ⟨hjdown, hjlow⟩ := s.lowestKey_some j hj
  have hjk : ¬ j.toNat < k.toNat := fun hlt => by simp [hlow j hlt] at hjdown
  have hkj : ¬ k.toNat < j.toNat := fun hlt => by simp [hjlow k hlt] at hdown
  rw [hj, BitVec.eq_of_toNat_eq (show j.toNat = k.toNat by omega)]

/-- A state that differs in the timers alone, and an advance. -/
theorem State.advance_law_of_timers {s t : State} (h : t = { s with dt := t.dt, st := t.st }) :
    PcBy 2 s t.advance ∧ SameButTimersPc s t.advance := by
  rw [h]
  obtain ⟨hregs, ⟨hi, hstack, -, hmem, hpix, hkeys, hcontrol, hmodel⟩, hdraws⟩ :=
    ({ s with dt := t.dt, st := t.st } : State).sameButPc_advance
  exact ⟨s.pcBy_advance, hregs, hi, hstack, hmem, hpix, hkeys, hcontrol, hmodel, hdraws⟩

end Sys2Proof.Machine

open Sys2Proof Sys2Proof.Machine

/-- Settles O32: each is one register write, of the value that its operation has as a number. -/
theorem copyAndLogicWriteVxAlone : Obligations.CopyAndLogicWriteVxAlone := fun x y s =>
  ⟨⟨decode_encode (.ldReg x y) rfl, decode_encode (.orReg x y) rfl, decode_encode (.andReg x y) rfl,
      decode_encode (.xorReg x y) rfl⟩,
    ⟨_, rfl, s.setReg_advance_law x _⟩, ⟨_, rfl, s.setReg_advance_law_toNat x (BitVec.toNat_or _ _)⟩,
    ⟨_, rfl, s.setReg_advance_law_toNat x (BitVec.toNat_and _ _)⟩,
    _, rfl, s.setReg_advance_law_toNat x (BitVec.toNat_xor _ _)⟩

/-- Settles O34: the sum is written first and the carry last. -/
theorem addsWriteTheCarryLast : Obligations.AddsWriteTheCarryLast := fun x y kk s =>
  ⟨decode_encode (.addByte x kk) rfl, decode_encode (.addReg x y) rfl,
    ⟨_, exec_addByte_eq x kk s,
      s.setReg_setReg_advance_law_toNat x flagReg (addResult_toNat _ _) (carryFlag_toNat _ _)⟩,
    _, exec_addReg_eq x y s, s.setReg_setReg_advance_law_toNat x flagReg (addResult_toNat _ _) (carryFlag_toNat _ _)⟩

/-- Settles O35: the difference is written first and NOT borrow last. -/
theorem subtractionsWriteNotBorrowLast : Obligations.SubtractionsWriteNotBorrowLast := fun x y s =>
  ⟨decode_encode (.sub x y) rfl, decode_encode (.subn x y) rfl,
    ⟨_, exec_sub_eq x y s,
      s.setReg_setReg_advance_law_toNat x flagReg (subResult_toNat _ _) (notBorrowFlag_toNat _ _)⟩,
    _, exec_subn_eq x y s,
      s.setReg_setReg_advance_law_toNat x flagReg (subResult_toNat _ _) (notBorrowFlag_toNat _ _)⟩

/-- Settles O36: the bit shifted out is written first and the shifted value last. -/
theorem shiftsWriteVxLast : Obligations.ShiftsWriteVxLast := fun x y s =>
  ⟨decode_encode (.shr x y) rfl, decode_encode (.shl x y) rfl,
    ⟨_, rfl, s.setReg_setReg_advance_law_toNat flagReg x (shiftedOutRight_toNat _) (ushiftRight_one_toNat _)⟩,
    _, rfl, s.setReg_setReg_advance_law_toNat flagReg x (shiftedOutLeft_toNat _) (shiftLeft_one_toNat _)⟩

/-- Settles O37: one register write in the state whose draw counter has moved on. -/
theorem randomByteIsMasked : Obligations.RandomByteIsMasked := by
  intro x kk s
  obtain ⟨hreg, hpc, hframe, -⟩ := s.drawn.setReg_advance_law x (s.nextRandom &&& kk)
  exact ⟨decode_encode (.rnd x kk) rfl, _, rfl, hreg, rfl, hpc, hframe⟩

/-- Settles O49: one register write, and two timer writes. -/
theorem timerInstructions : Obligations.TimerInstructions := fun x s =>
  ⟨⟨decode_encode (.ldVxDt x) rfl, decode_encode (.ldDtVx x) rfl, decode_encode (.ldStVx x) rfl⟩,
    ⟨_, rfl, s.setReg_advance_law x s.dt⟩,
    ⟨_, rfl, rfl, rfl, State.advance_law_of_timers (t := s.setDelay (s.reg x)) rfl⟩,
    _, rfl, rfl, rfl, State.advance_law_of_timers (t := s.setSound (s.reg x)) rfl⟩

/-- Settles O50: the key that the search finds is the lowest one, and it finds none when none is pressed. -/
theorem waitForKeyTakesTheLowestKey : Obligations.WaitForKeyTakesTheLowestKey := by
  refine fun x s => ⟨decode_encode (.ldVxK x) rfl, fun k hdown hlow => ?_, fun hup => ?_⟩
  · have hk : (k.setWidth 8).toNat = k.toNat := BitVec.toNat_setWidth_of_le (by decide)
    exact ⟨_, exec_ldVxK_of_lowestKey_some x (State.lowestKey_eq_some hdown hlow), s.setReg_advance_law_toNat x hk⟩
  · exact exec_ldVxK_of_lowestKey_none x (s.lowestKey_none.mpr hup)
end

section
/-! PROOFS. The index register and memory transfer (42_index_memory.md; 20_memory.md sections 2 and 5). -/

namespace Sys2Proof.Machine

/-! The frames of an index write and of a memory write. -/

theorem State.sameButIndexPc_setIndex_advance (s : State) (w : Word) : SameButIndexPc s (s.setIndex w).advance := by
  obtain ⟨hregs, ⟨-, hstack, htimers, hmem, hpix, hkeys, hcontrol, hmodel⟩, hdraws⟩ := (s.setIndex w).sameButPc_advance
  exact ⟨hregs, hstack, htimers, hmem, hpix, hkeys, hcontrol, hmodel, hdraws⟩

/-- A state that differs in the memory alone, and an advance. -/
theorem State.advance_law_of_mem {s t : State} (h : t = { s with mem := t.mem }) :
    PcBy 2 s t.advance ∧ SameButMemPc s t.advance := by
  rw [h]
  obtain ⟨hregs, ⟨hi, hstack, htimers, -, hpix, hkeys, hcontrol, hmodel⟩, hdraws⟩ :=
    ({ s with mem := t.mem } : State).sameButPc_advance
  exact ⟨s.pcBy_advance, hregs, hi, hstack, htimers, hpix, hkeys, hcontrol, hmodel, hdraws⟩

/-- A state that differs in the registers alone, and an advance. -/
theorem State.advance_law_of_v {s t : State} (h : t = { s with v := t.v }) :
    PcBy 2 s t.advance ∧ SameButRegsPc s t.advance := by
  rw [h]
  exact ⟨s.pcBy_advance, ({ s with v := t.v } : State).sameButPc_advance.2⟩

/-! The values (R202, R203). -/

theorem zextByte_toNat (b : Byte) : (zextByte b).toNat = b.toNat := by
  have := b.isLt
  simp only [zextByte, BitVec.toNat_setWidth]
  omega

theorem glyphAddress_toNat (vx : Byte) : (glyphAddress vx).toNat = 5 * (vx.toNat % 16) := by
  have hdigit : (vx &&& 0x0F#8).toNat = vx.toNat % 16 := by
    rw [BitVec.toNat_and]
    exact Nat.and_two_pow_sub_one_eq_mod vx.toNat 4
  rw [glyphAddress, BitVec.toNat_ofNat, hdigit, fontBase]
  omega

theorem hundreds_toNat (vx : Byte) : (hundreds vx).toNat = vx.toNat / 100 := by
  have := vx.isLt
  rw [hundreds, BitVec.toNat_ofNat]
  omega

theorem tens_toNat (vx : Byte) : (tens vx).toNat = vx.toNat / 10 % 10 := by
  rw [tens, BitVec.toNat_ofNat]
  omega

theorem units_toNat (vx : Byte) : (units vx).toNat = vx.toNat % 10 := by
  rw [units, BitVec.toNat_ofNat]
  omega

/-- The three addresses differ, so that no store undoes another. -/
theorem State.byteAt_storeDigits (s : State) (vx : Byte) (a : Nat) :
    ((s.storeDigits vx).byteAt a).toNat =
      if a = ea s.i 0 then vx.toNat / 100 else if a = ea s.i 1 then vx.toNat / 10 % 10
      else if a = ea s.i 2 then vx.toNat % 10 else (s.byteAt a).toNat := by
  have h01 : ea s.i 0 ≠ ea s.i 1 := fun h => absurd (ea_inj s.i 0 1 (by omega) (by omega) h) (by omega)
  have h02 : ea s.i 0 ≠ ea s.i 2 := fun h => absurd (ea_inj s.i 0 2 (by omega) (by omega) h) (by omega)
  have h12 : ea s.i 1 ≠ ea s.i 2 := fun h => absurd (ea_inj s.i 1 2 (by omega) (by omega) h) (by omega)
  rw [← hundreds_toNat, ← tens_toNat, ← units_toNat]
  simp only [State.storeDigits, State.byteAt_store]
  by_cases h0 : a = ea s.i 0
  · simp [h0, h01, h02]
  · by_cases h1 : a = ea s.i 1
    · simp [h1, h01.symm, h12]
    · by_cases h2 : a = ea s.i 2
      · simp [h2, h02.symm, h12.symm]
      · simp [h0, h1, h2]

/-! Storing and loading the first registers, with the registers as indices (R204, R205). -/

/-- V0..Vx lie at EA(I) up. -/
theorem State.byteAt_storeRegs_of_le (s : State) {x k : RegIdx} (hk : k.toNat ≤ x.toNat) :
    (s.storeRegs (x.toNat + 1)).byteAt (ea s.i k.toNat) = s.reg k := by
  have hx := x.isLt
  rw [(s.byteAt_storeRegs (x.toNat + 1) (by omega) _).1 k.toNat (by omega) rfl, BitVec.ofNat_toNat, BitVec.setWidth_eq]

/-- Every other address is as before. -/
theorem State.byteAt_storeRegs_of_ne (s : State) {x : RegIdx} {a : Nat}
    (ha : ∀ k : RegIdx, k.toNat ≤ x.toNat → a ≠ ea s.i k.toNat) :
    (s.storeRegs (x.toNat + 1)).byteAt a = s.byteAt a := by
  have hx := x.isLt
  refine (s.byteAt_storeRegs (x.toNat + 1) (by omega) a).2 fun k hk => ?_
  have hofNat : (BitVec.ofNat 4 k).toNat = k := Nat.mod_eq_of_lt (by omega)
  have hne := ha (BitVec.ofNat 4 k) (by omega)
  rwa [hofNat] at hne

theorem State.reg_loadRegs_le (s : State) (x r : RegIdx) :
    (s.loadRegs (x.toNat + 1)).reg r = if r.toNat ≤ x.toNat then s.byteAt (ea s.i r.toNat) else s.reg r := by
  have hx := x.isLt
  simp only [s.reg_loadRegs (x.toNat + 1) (by omega) r, Nat.lt_succ_iff]

/-- The next effective address depends on the effective address alone (20_memory.md R75). -/
theorem ea_one_of_ea_zero {pc base : Word} {k : Nat} (h : ea pc 0 = ea base k) : ea pc 1 = ea base (k + 1) := by
  unfold ea Config.memorySize at *
  omega

end Sys2Proof.Machine

open Sys2Proof Sys2Proof.Machine

/-- Settles O38: each is one write of I. -/
theorem indexInstructionsSetI : Obligations.IndexInstructionsSetI := by
  refine fun nnn x s => ⟨⟨decode_encode (.ldI nnn) rfl, decode_encode (.addI x) rfl, decode_encode (.ldF x) rfl⟩,
    ⟨_, rfl, zextAddr_toNat nnn, (s.setIndex _).pcBy_advance, s.sameButIndexPc_setIndex_advance _⟩,
    ⟨_, rfl, ?_, (s.setIndex _).pcBy_advance, s.sameButIndexPc_setIndex_advance _⟩,
    _, rfl, glyphAddress_toNat (s.reg x), (s.setIndex _).pcBy_advance, s.sameButIndexPc_setIndex_advance _⟩
  rw [State.advance_i, State.setIndex_i, BitVec.toNat_add, zextByte_toNat]

/-- Settles O39: the bytes after the store of the digits, and the frame of a store. -/
theorem bcdStoresThreeDigits : Obligations.BcdStoresThreeDigits :=
  ⟨fun _ _ => rfl, fun x s => ⟨decode_encode (.ldB x) rfl, _, exec_ldB_eq x s, s.byteAt_storeDigits (s.reg x),
    State.advance_law_of_mem (s.storeDigits_eq (s.reg x))⟩⟩

/-- Settles O40: what the stores of the first x + 1 registers leave at each address. -/
theorem storeRegistersInclusive : Obligations.StoreRegistersInclusive := fun x s =>
  ⟨decode_encode (.ldMemVx x) rfl, _, rfl, fun _ hk => s.byteAt_storeRegs_of_le hk,
    fun _ ha => s.byteAt_storeRegs_of_ne ha, State.advance_law_of_mem (s.storeRegs_eq _)⟩

/-- Settles O41: what the loads of the first x + 1 registers leave in each register. -/
theorem loadRegistersInclusive : Obligations.LoadRegistersInclusive := fun x s =>
  ⟨decode_encode (.ldVxMem x) rfl, _, rfl, s.reg_loadRegs_le x, State.advance_law_of_v (s.loadRegs_eq _)⟩

/-- Settles O42: the load reads the addresses at which the store left the registers. -/
theorem loadUndoesStore : Obligations.LoadUndoesStore := by
  intro x s t u ht hmem hi
  cases ht
  have hu : u.i = s.i := by rw [hi, State.storeRegs_eq]; rfl
  refine ⟨_, rfl, fun r => ?_, fun a => ?_⟩
  · rw [State.reg_advance, State.reg_loadRegs_le]
    split
    case isTrue hr => rw [hmem, hu]; exact s.byteAt_storeRegs_of_le hr
    case isFalse => rfl
  · obtain ⟨-, ⟨-, -, -, hload, -⟩, -⟩ := State.advance_law_of_v (u.loadRegs_eq (x.toNat + 1))
    exact (hload a).trans (hmem a)

/-- Settles O44: the fetch reads the two addresses at which the store left Vk and the register after it. -/
theorem storedCodeIsFetchedAtOnce : Obligations.StoredCodeIsFetchedAtOnce := by
  intro x k s t hk ht hpc
  have hx := x.isLt
  have hnext : (k + 1#4).toNat = k.toNat + 1 := by bv_omega
  cases ht
  have h0 : ea (s.storeRegs (x.toNat + 1)).advance.pc 0 = ea s.i k.toNat := hpc
  have h1 := ea_one_of_ea_zero h0
  rw [← hnext] at h1
  rw [State.instrAtPc, h0, h1, State.byteAt_advance, State.byteAt_advance, s.byteAt_storeRegs_of_le (by omega),
    s.byteAt_storeRegs_of_le (by omega)]
  rfl
end

section
/-! PROOFS. DRW: the sprite's bits on the grid, the collision, and the same draw twice (43_display.md R221 to R223). -/

namespace Sys2Proof.Machine

/-! The bits of a sprite (R221). -/

/-- Bit 7 of a byte is its leftmost pixel, and there are eight. -/
theorem bitAt_spriteBits_iff (x0 : Nat) (b : Byte) (px : Nat) :
    bitAt x0 (spriteBits b) px = true ↔ x0 ≤ px ∧ px < x0 + 8 ∧ b.toNat.testBit (7 - (px - x0)) = true := by
  by_cases hle : x0 ≤ px
  · by_cases hlt : px - x0 < 8
    · have hlt' : px < x0 + 8 := by omega
      simp [bitAt, spriteBits, hle, hlt, hlt', BitVec.getLsbD]
    · have hlt' : ¬ px < x0 + 8 := by omega
      simp [bitAt, spriteBits, hle, hlt, hlt']
  · simp [bitAt, hle]

/-- The sprite of a DRW has a set bit where the statements say so. -/
theorem spriteAt_sprite_iff (s : State) (x y : RegIdx) (n : Nibble) (px py : Nat) :
    spriteAt (s.reg x).toNat (s.reg y).toNat (s.sprite n.toNat) px py = true ↔ SpriteBit s x y n px py := by
  unfold SpriteBit
  by_cases hle : (s.reg y).toNat ≤ py
  · by_cases hlt : py - (s.reg y).toNat < n.toNat
    · have hlt' : py < (s.reg y).toNat + n.toNat := by omega
      simp [spriteAt, State.sprite, hle, hlt, hlt', bitAt_spriteBits_iff]
    · have hlt' : ¬ py < (s.reg y).toNat + n.toNat := by omega
      simp [spriteAt, State.sprite, hle, hlt, hlt']
  · simp [spriteAt, hle]

/-! The draw. -/

/-- The blit of a DRW (R222). -/
def State.blit (s : State) (x y : RegIdx) (n : Nibble) : Blit :=
  drawRows (s.reg x).toNat (s.reg y).toNat (s.sprite n.toNat) { pix := s.pix, collision := false }

/-- What a DRW leaves: the collision in VF, the map, PC. -/
def State.drew (s : State) (x y : RegIdx) (n : Nibble) : State :=
  ((s.setReg flagReg (flag (s.blit x y n).collision)).setPix (s.blit x y n).pix).advance

theorem exec_drw_eq (x y : RegIdx) (n : Nibble) (s : State) : exec (.drw x y n) s = .next (s.drew x y n) := rfl

section
variable (s : State) (x y : RegIdx) (n : Nibble)

theorem State.pixel_drew_of_spriteBit {px py : Nat} (hx : px < 64) (hy : py < 32) (h : SpriteBit s x y n px py) :
    (s.drew x y n).pixel px py = !s.pixel px py := by
  have hget := drawRows_get (s.reg x).toNat (s.reg y).toNat (s.sprite n.toNat) ⟨s.pix, false⟩ px py ⟨hx, hy⟩
  rw [(spriteAt_sprite_iff s x y n px py).mpr h, Bool.true_xor] at hget
  exact hget

theorem State.pixel_drew_of_not_spriteBit {px py : Nat} (hx : px < 64) (hy : py < 32)
    (h : ¬ SpriteBit s x y n px py) : (s.drew x y n).pixel px py = s.pixel px py := by
  have hget := drawRows_get (s.reg x).toNat (s.reg y).toNat (s.sprite n.toNat) ⟨s.pix, false⟩ px py ⟨hx, hy⟩
  rw [Bool.eq_false_iff.mpr (mt (spriteAt_sprite_iff s x y n px py).mp h), Bool.false_xor] at hget
  exact hget

/-- There is a collision where the sprite covers a pixel of the grid that was set. -/
theorem State.blit_collision_iff :
    (s.blit x y n).collision = true ↔
      ∃ px py, px < 64 ∧ py < 32 ∧ SpriteBit s x y n px py ∧ s.pixel px py = true := by
  rw [State.blit, drawRows_collision]
  simp only [Bool.false_eq_true, false_or, spriteAt_sprite_iff]
  refine exists_congr fun px => exists_congr fun py => ⟨fun ⟨hbit, hset⟩ => ?_, fun ⟨_, _, h⟩ => h⟩
  have hgrid : px < 64 ∧ py < 32 := by
    by_contra hoff
    simp [Pixmap.get_off _ _ _ hoff] at hset
  exact ⟨hgrid.1, hgrid.2, hbit, hset⟩

theorem State.reg_drew (r : RegIdx) :
    (s.drew x y n).reg r = if r = flagReg then flag (s.blit x y n).collision else s.reg r :=
  s.reg_setReg flagReg _ r

/-- A draw moves PC on, and leaves alone what is neither a register, the map nor PC. -/
theorem State.drew_frame : PcBy 2 s (s.drew x y n) ∧ SameButRegsPixPc s (s.drew x y n) :=
  ⟨((s.setReg flagReg (flag (s.blit x y n).collision)).setPix (s.blit x y n).pix).pcBy_advance,
    (s.setReg flagReg (flag (s.blit x y n).collision)).sameButRegsPixPc_setPix_advance (s.blit x y n).pix⟩

/-- VF tells the collision: 1 with one, 0 without. -/
theorem State.flag_drew_of_collision
    (h : ∃ px py, px < 64 ∧ py < 32 ∧ SpriteBit s x y n px py ∧ s.pixel px py = true) :
    (s.drew x y n).reg flagReg = 1#8 := by
  rw [State.reg_drew, if_pos rfl, (s.blit_collision_iff x y n).mpr h]
  rfl

theorem State.flag_drew_of_no_collision
    (h : ¬ ∃ px py, px < 64 ∧ py < 32 ∧ SpriteBit s x y n px py ∧ s.pixel px py = true) :
    (s.drew x y n).reg flagReg = 0#8 := by
  rw [State.reg_drew, if_pos rfl, Bool.eq_false_iff.mpr (mt (s.blit_collision_iff x y n).mp h)]
  rfl

/-- A draw leaves its own sprite and its place as they were, unless it takes its place from VF. -/
theorem State.spriteBit_drew_iff (hx : x ≠ flagReg) (hy : y ≠ flagReg) (px py : Nat) :
    SpriteBit (s.drew x y n) x y n px py ↔ SpriteBit s x y n px py := by
  have hrx : (s.drew x y n).reg x = s.reg x := by rw [State.reg_drew, if_neg hx]
  have hry : (s.drew x y n).reg y = s.reg y := by rw [State.reg_drew, if_neg hy]
  rw [SpriteBit, hrx, hry]
  exact Iff.rfl

/-- The second of two equal draws exchanges the same pixels back. -/
theorem State.pix_drew_drew (hx : x ≠ flagReg) (hy : y ≠ flagReg) : ((s.drew x y n).drew x y n).pix = s.pix := by
  refine Pixmap.ext_get _ _ fun px py => ?_
  by_cases hgrid : px < 64 ∧ py < 32
  case neg => rw [Pixmap.get_off _ _ _ hgrid, Pixmap.get_off _ _ _ hgrid]
  case pos =>
    obtain ⟨hpx, hpy⟩ := hgrid
    have hbit := s.spriteBit_drew_iff x y n hx hy px py
    change ((s.drew x y n).drew x y n).pixel px py = s.pixel px py
    by_cases h : SpriteBit s x y n px py
    · rw [State.pixel_drew_of_spriteBit _ x y n hpx hpy (hbit.mpr h), s.pixel_drew_of_spriteBit x y n hpx hpy h,
        Bool.not_not]
    · rw [State.pixel_drew_of_not_spriteBit _ x y n hpx hpy (mt hbit.mp h),
        s.pixel_drew_of_not_spriteBit x y n hpx hpy h]

/-- What the second draw finds set is what the first found clear. -/
theorem State.collision_drew_iff (hx : x ≠ flagReg) (hy : y ≠ flagReg) :
    (∃ px py, px < 64 ∧ py < 32 ∧ SpriteBit (s.drew x y n) x y n px py ∧ (s.drew x y n).pixel px py = true) ↔
      ∃ px py, px < 64 ∧ py < 32 ∧ SpriteBit s x y n px py ∧ s.pixel px py = false := by
  refine exists_congr fun px => exists_congr fun py => and_congr_right fun hpx => and_congr_right fun hpy => ?_
  rw [s.spriteBit_drew_iff x y n hx hy]
  refine and_congr_right fun h => ?_
  rw [s.pixel_drew_of_spriteBit x y n hpx hpy h, Bool.not_eq_true']

end

end Sys2Proof.Machine

open Sys2Proof Sys2Proof.Machine

/-- Settles O46: the pixels one by one, the collision, and the frame of a register write and a new map. -/
theorem drawExchangesTheCoveredPixels : Obligations.DrawExchangesTheCoveredPixels := fun x y n s =>
  ⟨decode_encode (.drw x y n) rfl, _, exec_drw_eq x y n s,
    fun _ _ hpx hpy => ⟨s.pixel_drew_of_spriteBit x y n hpx hpy, s.pixel_drew_of_not_spriteBit x y n hpx hpy⟩,
    s.flag_drew_of_collision x y n, s.flag_drew_of_no_collision x y n,
    fun r hr => (s.reg_drew x y n r).trans (if_neg hr), s.drew_frame x y n⟩

/-- Settles O47: the second draw covers the same pixels, and collides where the first found one clear. -/
theorem drawTwiceRestoresThePixels : Obligations.DrawTwiceRestoresThePixels := by
  intro x y n s hx hy
  refine ⟨_, _, exec_drw_eq x y n s, exec_drw_eq x y n _, s.pix_drew_drew x y n hx hy, fun h => ?_, fun h => ?_⟩
  · exact State.flag_drew_of_collision _ x y n ((s.collision_drew_iff x y n hx hy).mpr h)
  · exact State.flag_drew_of_no_collision _ x y n (mt (s.collision_drew_iff x y n hx hy).mp h)
end

section
/-! PROOFS. The writers of VF, and what the instructions can observe (10_state.md sections 2 and 9). -/

namespace Sys2Proof.Machine

/-! VF (10_state.md R32). -/

/-- A write of one register changes VF only when it names VF. -/
theorem State.eq_flagReg_of_setReg {s : State} {x : RegIdx} {b : Byte}
    (h : (s.setReg x b).reg flagReg ≠ s.reg flagReg) : x = flagReg := by
  by_contra hx
  exact h (by rw [State.reg_setReg, if_neg (Ne.symm hx)])

/-- A load of V0..Vx reaches VF only when x is F. -/
theorem State.eq_flagReg_of_loadRegs {s : State} {x : RegIdx}
    (h : (s.loadRegs (x.toNat + 1)).reg flagReg ≠ s.reg flagReg) : x = flagReg := by
  have hx := x.isLt
  by_contra hne
  refine h ?_
  have hlt : ¬ flagReg.toNat ≤ x.toNat := fun hle => hne (by bv_omega)
  rw [State.reg_loadRegs_le, if_neg hlt]

/-! What a program cannot observe (10_state.md section 9). -/

/-- `s` with what a program does not observe taken from `o`: the fields of the scheduler, the controller and the model, and
the list that holds the memory, of which a program observes what it reads. -/
def State.withHidden (s o : State) : State :=
  { s with
    mem := o.mem, breakpoints := o.breakpoints, running := o.running, cycles := o.cycles, stopRequest := o.stopRequest,
    fault := o.fault, stopReason := o.stopReason, displaySignal := o.displaySignal, audioSignal := o.audioSignal,
    agenda := o.agenda, schedule := o.schedule, report := o.report }

/-- Two states that agree on what a program reads or writes differ in what it does not observe. -/
theorem SameArchitecture.eq_withHidden {s o : State} (h : SameArchitecture s o) : o = s.withHidden o := by
  obtain ⟨hregs, hi, hpc, ⟨hsp, hstack⟩, ⟨hdt, hst⟩, -, hpix, hkey, hdraws⟩ := h
  have hv : o.v = s.v := Vector.ext fun j hj => by simpa [State.reg, Nat.mod_eq_of_lt hj] using hregs (BitVec.ofNat 4 j)
  simp only [State.withHidden, ← hv, ← hi, ← hpc, ← hsp, ← hstack, ← hdt, ← hst, ← hpix, ← hdraws]
  rw [← show o.key = s.key from hkey]

theorem SameArchitecture.withHidden {s o : State} (h : SameMem s o) : SameArchitecture s (s.withHidden o) :=
  ⟨fun _ => rfl, rfl, rfl, ⟨rfl, rfl⟩, ⟨rfl, rfl⟩, h, rfl, rfl, rfl⟩

/-- Equal stores to memories that read the same leave memories that read the same. -/
theorem SameMem.store {s o : State} (h : SameMem s o) (a : Nat) (b : Byte) : SameMem (s.store a b) (o.store a b) := by
  intro k
  rw [State.byteAt_store, State.byteAt_store, h k]

theorem stepOutcome_withHidden (i : Instr) (s o : State) : stepOutcome i (s.withHidden o) = stepOutcome i s := by
  cases i <;> rfl

section
variable {s o : State} (hmem : SameMem s o)

/-- Two results that differ from their states in the memory alone agree on what else is observed. -/
theorem State.eq_withHidden_of_mem {s o t u : State} (ht : t = { s with mem := t.mem })
    (hu : u = { s.withHidden o with mem := u.mem }) : u = t.withHidden u := by
  rw [hu, ht]
  rfl

include hmem

theorem SameMem.storeDigits (b : Byte) : SameMem (s.storeDigits b) ((s.withHidden o).storeDigits b) := by
  have h0 : SameMem s (s.withHidden o) := hmem
  exact ((h0.store (ea s.i 0) (hundreds b)).store (ea s.i 1) (tens b)).store (ea s.i 2) (units b)

theorem SameMem.storeRegs (n : Nat) : SameMem (s.storeRegs n) ((s.withHidden o).storeRegs n) := by
  induction n with
  | zero => exact hmem
  | succ n ih => exact ih.store _ _

theorem SameMem.loadRegs_withHidden (n : Nat) : (s.withHidden o).loadRegs n = (s.loadRegs n).withHidden o := by
  have hbyte (k : Nat) : (s.withHidden o).byteAt k = s.byteAt k := hmem k
  induction n with
  | zero => rfl
  | succ n ih =>
    simp only [State.loadRegs, ih, hbyte]
    rfl

theorem SameMem.drew_withHidden (x y : RegIdx) (n : Nibble) :
    (s.withHidden o).drew x y n = (s.drew x y n).withHidden o := by
  have hsprite : (s.withHidden o).sprite n.toNat = s.sprite n.toNat := List.map_congr_left fun r _ => hmem _
  have hblit : (s.withHidden o).blit x y n = s.blit x y n := by
    rw [State.blit, hsprite]
    rfl
  rw [State.drew, hblit]
  rfl

/-- An instruction does the same whatever a program does not observe, and leaves memories that read the same. -/
theorem exec_withHidden {i : Instr} {t : State} (h : exec i s = .next t) :
    ∃ u, exec i (s.withHidden o) = .next u ∧ SameMem t u ∧ u = t.withHidden u := by
  cases i with
  | ret =>
    by_cases hsp : s.sp.val = 16
    · cases (exec_ret_of_empty hsp).symm.trans h
      exact ⟨_, exec_ret_of_empty hsp, hmem, rfl⟩
    · cases (exec_ret_of_pushed hsp).symm.trans h
      exact ⟨_, exec_ret_of_pushed (s := s.withHidden o) hsp, hmem, rfl⟩
  | call nnn =>
    by_cases hsp : s.sp.val = 0
    · cases (exec_call_of_full nnn hsp).symm.trans h
      exact ⟨_, exec_call_of_full nnn hsp, hmem, rfl⟩
    · cases (exec_call_of_room nnn hsp).symm.trans h
      exact ⟨_, exec_call_of_room nnn hsp, hmem, rfl⟩
  | ldVxK x =>
    cases hkey : s.lowestKey with
    | none =>
      cases (exec_ldVxK_of_lowestKey_none x hkey).symm.trans h
      exact ⟨_, exec_ldVxK_of_lowestKey_none x hkey, hmem, rfl⟩
    | some k =>
      cases (exec_ldVxK_of_lowestKey_some x hkey).symm.trans h
      exact ⟨_, exec_ldVxK_of_lowestKey_some x hkey, hmem, rfl⟩
  | ldB x =>
    cases (exec_ldB_eq x s).symm.trans h
    exact ⟨_, exec_ldB_eq x _, hmem.storeDigits (s.reg x), congrArg State.advance
      (State.eq_withHidden_of_mem (s.storeDigits_eq _) ((s.withHidden o).storeDigits_eq (s.reg x)))⟩
  | ldMemVx x =>
    cases h
    exact ⟨_, rfl, hmem.storeRegs _, congrArg State.advance
      (State.eq_withHidden_of_mem (s.storeRegs_eq _) ((s.withHidden o).storeRegs_eq _))⟩
  | ldVxMem x =>
    cases h
    refine ⟨_, rfl, ?_, ?_⟩ <;> rw [hmem.loadRegs_withHidden, s.loadRegs_eq]
    · exact hmem
    · rfl
  | drw x y n =>
    cases h
    exact ⟨_, (exec_drw_eq x y n _).trans (congrArg _ (hmem.drew_withHidden x y n)), hmem, rfl⟩
  | _ => cases h; exact ⟨_, rfl, hmem, rfl⟩

end

end Sys2Proof.Machine

open Sys2Proof Sys2Proof.Machine

/-- Settles O53: the seven flag instructions are named, and every other register write names VF. -/
theorem onlyFlagInstructionsTouchVf : Obligations.OnlyFlagInstructionsTouchVf := by
  intro i s t h hne
  cases i with
  | addByte _ _ | addReg _ _ | sub _ _ | shr _ _ | subn _ _ | shl _ _ | drw _ _ _ => simp
  | ldByte x _ | ldReg x _ | orReg x _ | andReg x _ | xorReg x _ | ldVxDt x =>
    cases h
    obtain rfl : x = flagReg := State.eq_flagReg_of_setReg hne
    simp
  | rnd x kk =>
    cases h
    obtain rfl : x = flagReg := State.eq_flagReg_of_setReg (s := s.drawn) hne
    simp
  | ldVxK x =>
    simp only [exec, execLdVxK] at h
    split at h <;> cases h
    · obtain rfl : x = flagReg := State.eq_flagReg_of_setReg hne
      simp
    · exact absurd rfl hne
  | ldVxMem x =>
    cases h
    obtain rfl : x = flagReg := State.eq_flagReg_of_loadRegs hne
    simp
  | ldB x => cases h; simp at hne
  | ldMemVx x =>
    cases h
    exact absurd (s.reg_storeRegs _ _) hne
  | ret =>
    simp only [exec, execRet] at h
    split at h <;> cases h <;> exact absurd rfl hne
  | call nnn =>
    simp only [exec, execCall] at h
    split at h <;> cases h <;> exact absurd rfl hne
  | _ => cases h; exact absurd rfl hne

/-- Settles O54: a state that agrees is the state with the unobserved fields exchanged. -/
theorem controlStateIsInvisibleToPrograms : Obligations.ControlStateIsInvisibleToPrograms := by
  intro i s s' t hsame h
  have ⟨_, _, _, _, _, hmem, _⟩ := hsame
  obtain ⟨u, hu, htu, hhidden⟩ := exec_withHidden hmem h
  rw [hsame.eq_withHidden]
  exact ⟨u, hu, hhidden ▸ .withHidden htu, stepOutcome_withHidden i s s'⟩
end
